-- ==== Sys2Proof/Word.lean ====
section
/-! DEFINITION. The word types of the block (00_scope R9, R10) and the four present flags (30_encoding R83). -/

namespace Sys2Proof

/-- A u8: a cell, a byte of the operand buffer, an 8-bit field (00_scope R9). -/
abbrev Byte := BitVec 8

/-- A u16: an address field, `minutesLT`, `daysSinceEpoch`, the `VALUE` field (00_scope R9). -/
abbrev Half := BitVec 16

/-- A 32-bit command or response word (30_encoding R80). -/
abbrev Word := BitVec 32

/-- A byte string, first byte first (00_scope R10). -/
abbrev Bytes := List Byte

/-- The four present flags of format `G`: false stands for the source's null pointer (30_encoding R83). -/
structure PresentFlags where
  /-- `P_IN`, `W[23]`: plaintext for encrypt, ciphertext for decrypt. -/
  pIn : Bool
  /-- `P_AAD`, `W[22]`. -/
  pAad : Bool
  /-- `P_OUT`, `W[21]`. -/
  pOut : Bool
  /-- `P_TAG`, `W[20]`. -/
  pTag : Bool
deriving DecidableEq, Repr

end Sys2Proof
end

