-- ==== Sys2Proof/Config.lean ====
section
/-! DEFINITION. The configuration record of 00_scope R7: what an implementation fixes. A value of it is carried in
State (log entry 2), so every statement over all states holds for every configuration. One value is
free: what hhq_encode gives above 1439 (log entry 25). -/

namespace Sys2Proof

/-- The implementation parameters (00_scope R7), hardwired and constant for the life of the block (10_state R30). -/
structure Config where
  /-- `TICK_LEN`: seconds added by one tick, 1 or 2. -/
  tickLen : Nat
  /-- `SPLIT_EW`: the cell array has separate erase and write operations. -/
  splitEw : Bool
  /-- `NV_SIZE`: number of non-volatile cells, 1 to 65536. -/
  nvSize : Nat
  /-- `NV_PAGE`: bytes per physical wear unit, a power of two, 2 or more. -/
  nvPage : Nat
  /-- `NV_ADDR_HHQ`: the cell that holds the persisted hour and quarter. -/
  nvAddrHhq : Nat
  /-- `NV_ADDR_DAYS`: the first of the two cells that hold the persisted day counter. -/
  nvAddrDays : Nat
  /-- `RESTORE_BIAS`: minutes added to the start of the restored quarter, 0 to 14. -/
  restoreBias : Nat
deriving DecidableEq, Repr

/-- The default column of 00_scope R7 (log entry 3). -/
def Config.default : Config where
  tickLen := 2
  splitEw := true
  nvSize := 1024
  nvPage := 4
  nvAddrHhq := 0x0008
  nvAddrDays := 0x000C
  restoreBias := 7

/-- `OB_SIZE` (00_scope R7): fixed. -/
def obSize : Nat := 1024

/-- `GCM_MAX_LEN` (00_scope R7): the largest N and the largest M an 8-bit field can name. -/
def gcmMaxLen : Nat := 255

/-- A free value: `hhq_encode(m)` for `m` above 1439, where 41_rtc R146 states no result. DESIGN CHOICE (log entry 25):
the instruction runs and nothing constrains the byte. Only a state outside 10_state R24 shows it. -/
opaque Config.hhqBeyondDay : Half → Byte

/-- The ranges and the constraints a configuration must meet (00_scope R7). -/
abbrev Config.wf (c : Config) : Prop :=
  (c.tickLen = 1 ∨ c.tickLen = 2) ∧
  (1 ≤ c.nvSize ∧ c.nvSize ≤ 65536) ∧
  (2 ≤ c.nvPage ∧ 2 ^ Nat.log2 c.nvPage = c.nvPage) ∧
  c.nvAddrHhq < c.nvSize ∧
  c.nvAddrDays + 1 < c.nvSize ∧
  c.nvAddrDays % c.nvPage = 0 ∧
  c.nvAddrHhq / c.nvPage ≠ c.nvAddrDays / c.nvPage ∧
  c.restoreBias ≤ 14

end Sys2Proof
end

