-- ==== Sys2Proof/Syntax.lean ====
section
/-! DEFINITION. The instruction set: the sixteen commands and the tick (30_encoding R86), one constructor for each row
of spec/opcode_table.json. -/

namespace Sys2Proof

/-- One constructor for each row of the opcode table (30_encoding R86). Every field has exactly the width of its field
in the command word (R81, R82), so every term is an instruction that can be encoded. -/
inductive Instr where
  /-- `BS.READ addr` (40_bytestore R118). -/
  | bsRead (addr : Half)
  /-- `BS.UPDATE addr, value` (40_bytestore R119). -/
  | bsUpdate (addr : Half) (value : Byte)
  /-- `BS.ERASE addr` (40_bytestore R120). -/
  | bsErase (addr : Half)
  /-- `BS.CLRBITS addr, mask` (40_bytestore R121). -/
  | bsClrbits (addr : Half) (mask : Byte)
  /-- `RTC.SETHM hours, minutes` (41_rtc R143). -/
  | rtcSethm (hours minutes : Byte)
  /-- `RTC.PERSIST` (41_rtc R148). -/
  | rtcPersist
  /-- `RTC.RESTORE` (41_rtc R151). -/
  | rtcRestore
  /-- `RTC.GETSEC` (41_rtc R152). -/
  | rtcGetsec
  /-- `RTC.GETMSM` (41_rtc R153). -/
  | rtcGetmsm
  /-- `RTC.GETDAYS` (41_rtc R154). -/
  | rtcGetdays
  /-- `RTC.GETHOURS` (41_rtc R156). -/
  | rtcGethours
  /-- `RTC.GETMINS` (41_rtc R157). -/
  | rtcGetmins
  /-- `GCM.ENCRYPT p, n, m` (43_gcm R210). -/
  | gcmEncrypt (p : PresentFlags) (n m : Byte)
  /-- `GCM.DECRYPT p, n, m` (43_gcm R215). -/
  | gcmDecrypt (p : PresentFlags) (n m : Byte)
  /-- `OB.WR off, byte` (44_operand_buffer R230). -/
  | obWr (off : Half) (byte : Byte)
  /-- `OB.RD off` (44_operand_buffer R231). -/
  | obRd (off : Half)
  /-- `RTC.TICK`: one pulse on the tick port (41_rtc R140). -/
  | rtcTick
deriving DecidableEq, Repr

end Sys2Proof
end

