-- ==== Sys2Proof/WellFormed.lean ====
section
/-! DEFINITION. What can be written ill formed, and the checks that refuse it. A term of Instr is well formed by its
types (every field has its field's width). A line of the assembler (30_encoding R95, R100) has natural numbers for
operands: an assembler refuses a field value that does not fit its field. The other check, of a configuration, is
Config.wf in Config.lean. -/

namespace Sys2Proof

/-- One line of a program in the spec's syntax, pseudo-instructions included (30_encoding R95, R100). -/
inductive AsmLine where
  | bsRead (addr : Nat)
  | bsUpdate (addr value : Nat)
  | bsErase (addr : Nat)
  | bsClrbits (addr mask : Nat)
  | rtcSethm (hours minutes : Nat)
  | rtcPersist
  | rtcRestore
  | rtcGetsec
  | rtcGetmsm
  | rtcGetdays
  | rtcGethours
  | rtcGetmins
  | gcmEncrypt (p n m : Nat)
  | gcmDecrypt (p n m : Nat)
  | obWr (off byte : Nat)
  | obRd (off : Nat)
  /-- `TICK`. -/
  | tick
  /-- `RESET`. -/
  | reset
  /-- `.tick k`: k consecutive `TICK` events. -/
  | tickTimes (k : Nat)
  /-- `OB.FILL off, hex`: one `OB.WR` for each byte of the string. -/
  | obFill (off : Nat) (bytes : Bytes)
  /-- `GCM.SETUP`: claim a 16-byte key and a 12-byte IV. -/
  | gcmSetup
  /-- `RTC.SETHM.A h, m`: the command word presented and its first step taken. -/
  | sethmA (hours minutes : Nat)
  /-- `RTC.SETHM.B`: the second step of that same command. -/
  | sethmB
deriving DecidableEq, Repr

/-- A value fits an unsigned field of `width` bits (30_encoding R82, R95). -/
def fitsField (width v : Nat) : Bool := decide (v < 2 ^ width)

/-- The operands of a line fit their fields (30_encoding R95); the steps `RTC.SETHM.A`, `RTC.SETHM.B` are those of one
ACCEPTED command (R100), so `RTC.SETHM.A` takes a valid time only. -/
def AsmLine.wellFormed : AsmLine → Bool
  | .bsRead a => fitsField 16 a
  | .bsUpdate a v => fitsField 16 a && fitsField 8 v
  | .bsErase a => fitsField 16 a
  | .bsClrbits a v => fitsField 16 a && fitsField 8 v
  | .rtcSethm h m => fitsField 8 h && fitsField 8 m
  | .rtcPersist => true
  | .rtcRestore => true
  | .rtcGetsec => true
  | .rtcGetmsm => true
  | .rtcGetdays => true
  | .rtcGethours => true
  | .rtcGetmins => true
  | .gcmEncrypt p n m => fitsField 4 p && fitsField 8 n && fitsField 8 m
  | .gcmDecrypt p n m => fitsField 4 p && fitsField 8 n && fitsField 8 m
  | .obWr a v => fitsField 16 a && fitsField 8 v
  | .obRd a => fitsField 16 a
  | .tick => true
  | .reset => true
  | .tickTimes _ => true
  | .obFill off bytes => decide (off + bytes.length ≤ 2 ^ 16)
  | .gcmSetup => true
  | .sethmA h m => decide (h ≤ 23) && decide (m ≤ 59)
  | .sethmB => true

end Sys2Proof
end

