-- ==== Sys2Proof/Decode.lean ====
section
/-! DEFINITION. The decoder, total on every word of the command port and on the tick port (30_encoding R81 to R88), and
the encoder written from the same tables. -/

namespace Sys2Proof

/-- What one presentation on a port carries: a command word on the command port, or a pulse on the tick port, which
has no payload (30_encoding R80, R85). -/
inductive PortWord where
  | command (w : Word)
  | pulse
deriving DecidableEq, Repr

/-- Why a word is no command (30_encoding R88). The block records neither the reason nor the word (60_exceptions R240). -/
inductive DecodeError where
  /-- `OP` is none of the sixteen values. -/
  | unknownOpcode (op : Byte)
  /-- `OP` is one of them, but a bit that its format requires to be zero is 1. -/
  | reservedBits (op : Byte)
deriving DecidableEq, Repr

/-! ### Fields of a command word (30_encoding R81) -/

/-- `OP = W[31:24]`. -/
def fieldOp (w : Word) : Byte := w.extractLsb' 24 8

/-- `ADDR = W[23:8]`. -/
def fieldAddr (w : Word) : Half := w.extractLsb' 8 16

/-- `HOURS = W[15:8]`, and `N = W[15:8]`. -/
def fieldByte1 (w : Word) : Byte := w.extractLsb' 8 8

/-- `BYTE = W[7:0]`, `MINUTES = W[7:0]`, and `M = W[7:0]`. -/
def fieldByte0 (w : Word) : Byte := w.extractLsb' 0 8

/-- `P = W[23:20]`, flag by flag (30_encoding R83). -/
def fieldPresent (w : Word) : PresentFlags where
  pIn := w.getLsbD 23
  pAad := w.getLsbD 22
  pOut := w.getLsbD 21
  pTag := w.getLsbD 20

/-- `W[23:0]`, zero in format `Z`. -/
def fieldLow24 (w : Word) : BitVec 24 := w.extractLsb' 0 24

/-- `W[23:16]`, zero in format `HM`. -/
def fieldByte2 (w : Word) : Byte := w.extractLsb' 16 8

/-- `W[19:16]`, zero in format `G`. -/
def fieldNibble4 (w : Word) : BitVec 4 := w.extractLsb' 16 4

/-! ### The five formats (30_encoding R81): the must-be-zero bits, then the fields -/

/-- Format `Z`: bits 23:0 zero. -/
def decodeZ (w : Word) (i : Instr) : Except DecodeError Instr :=
  if fieldLow24 w = 0#24 then .ok i else .error (.reservedBits (fieldOp w))

/-- Format `A`: `ADDR`, bits 7:0 zero. -/
def decodeA (w : Word) (mk : Half → Instr) : Except DecodeError Instr :=
  if fieldByte0 w = 0#8 then .ok (mk (fieldAddr w)) else .error (.reservedBits (fieldOp w))

/-- Format `AB`: `ADDR` and `BYTE`, no zero bits. -/
def decodeAB (w : Word) (mk : Half → Byte → Instr) : Except DecodeError Instr :=
  .ok (mk (fieldAddr w) (fieldByte0 w))

/-- Format `HM`: `HOURS` and `MINUTES`, bits 23:16 zero. -/
def decodeHM (w : Word) (mk : Byte → Byte → Instr) : Except DecodeError Instr :=
  if fieldByte2 w = 0#8 then .ok (mk (fieldByte1 w) (fieldByte0 w)) else .error (.reservedBits (fieldOp w))

/-- Format `G`: `P`, `N` and `M`, bits 19:16 zero. -/
def decodeG (w : Word) (mk : PresentFlags → Byte → Byte → Instr) : Except DecodeError Instr :=
  if fieldNibble4 w = 0#4 then .ok (mk (fieldPresent w) (fieldByte1 w) (fieldByte0 w))
  else .error (.reservedBits (fieldOp w))

/-- The decoder of the command port, one line for each row of 30_encoding R86; it never looks at state (R87). -/
def decodeCommand (w : Word) : Except DecodeError Instr :=
  if fieldOp w = 0x10#8 then decodeA w .bsRead
  else if fieldOp w = 0x11#8 then decodeAB w .bsUpdate
  else if fieldOp w = 0x12#8 then decodeA w .bsErase
  else if fieldOp w = 0x13#8 then decodeAB w .bsClrbits
  else if fieldOp w = 0x20#8 then decodeHM w .rtcSethm
  else if fieldOp w = 0x21#8 then decodeZ w .rtcPersist
  else if fieldOp w = 0x22#8 then decodeZ w .rtcRestore
  else if fieldOp w = 0x28#8 then decodeZ w .rtcGetsec
  else if fieldOp w = 0x29#8 then decodeZ w .rtcGetmsm
  else if fieldOp w = 0x2A#8 then decodeZ w .rtcGetdays
  else if fieldOp w = 0x2B#8 then decodeZ w .rtcGethours
  else if fieldOp w = 0x2C#8 then decodeZ w .rtcGetmins
  else if fieldOp w = 0x30#8 then decodeG w .gcmEncrypt
  else if fieldOp w = 0x31#8 then decodeG w .gcmDecrypt
  else if fieldOp w = 0x40#8 then decodeAB w .obWr
  else if fieldOp w = 0x41#8 then decodeA w .obRd
  else .error (.unknownOpcode (fieldOp w))

/-- Decoding of either port: a pulse is `RTC.TICK` and no command word is (30_encoding R85, R87). -/
def decode : PortWord → Except DecodeError Instr
  | .command w => decodeCommand w
  | .pulse => .ok .rtcTick

/-! ### Encoding (30_encoding R95, the encoding of a line) -/

/-- `P` as four bits, `P_IN` highest (30_encoding R83). -/
def presentBits (p : PresentFlags) : BitVec 4 :=
  BitVec.ofBool p.pIn ++ BitVec.ofBool p.pAad ++ BitVec.ofBool p.pOut ++ BitVec.ofBool p.pTag

/-- Format `Z`. -/
def encodeZ (op : Byte) : PortWord := .command (op ++ 0#24)

/-- Format `A`. -/
def encodeA (op : Byte) (addr : Half) : PortWord := .command (op ++ addr ++ 0#8)

/-- Format `AB`. -/
def encodeAB (op : Byte) (addr : Half) (byte : Byte) : PortWord := .command (op ++ addr ++ byte)

/-- Format `HM`. -/
def encodeHM (op hours minutes : Byte) : PortWord := .command (op ++ 0#8 ++ hours ++ minutes)

/-- Format `G`. -/
def encodeG (op : Byte) (p : PresentFlags) (n m : Byte) : PortWord :=
  .command (op ++ presentBits p ++ 0#4 ++ n ++ m)

/-- What the host or the tick source presents for an instruction (30_encoding R86, R95). -/
def encode : Instr → PortWord
  | .bsRead addr => encodeA 0x10#8 addr
  | .bsUpdate addr value => encodeAB 0x11#8 addr value
  | .bsErase addr => encodeA 0x12#8 addr
  | .bsClrbits addr mask => encodeAB 0x13#8 addr mask
  | .rtcSethm hours minutes => encodeHM 0x20#8 hours minutes
  | .rtcPersist => encodeZ 0x21#8
  | .rtcRestore => encodeZ 0x22#8
  | .rtcGetsec => encodeZ 0x28#8
  | .rtcGetmsm => encodeZ 0x29#8
  | .rtcGetdays => encodeZ 0x2A#8
  | .rtcGethours => encodeZ 0x2B#8
  | .rtcGetmins => encodeZ 0x2C#8
  | .gcmEncrypt p n m => encodeG 0x30#8 p n m
  | .gcmDecrypt p n m => encodeG 0x31#8 p n m
  | .obWr off byte => encodeAB 0x40#8 off byte
  | .obRd off => encodeA 0x41#8 off
  | .rtcTick => .pulse

/-! ### The match and mask columns of 30_encoding R86, for statements about the decoder -/

/-- The (match, mask) pairs of the sixteen commands: a word `W` is the command iff `W & mask = match`. -/
def opcodeTable : List (Word × Word) :=
  [ (0x10000000#32, 0xFF0000FF#32), (0x11000000#32, 0xFF000000#32), (0x12000000#32, 0xFF0000FF#32),
    (0x13000000#32, 0xFF000000#32), (0x20000000#32, 0xFFFF0000#32) ] ++
  [ (0x21000000#32, 0xFFFFFFFF#32), (0x22000000#32, 0xFFFFFFFF#32), (0x28000000#32, 0xFFFFFFFF#32),
    (0x29000000#32, 0xFFFFFFFF#32), (0x2A000000#32, 0xFFFFFFFF#32), (0x2B000000#32, 0xFFFFFFFF#32),
    (0x2C000000#32, 0xFFFFFFFF#32) ] ++
  [ (0x30000000#32, 0xFF0F0000#32), (0x31000000#32, 0xFF0F0000#32), (0x40000000#32, 0xFF000000#32),
    (0x41000000#32, 0xFF0000FF#32) ]

/-- The row of an instruction in that table; `RTC.TICK` has no command word (30_encoding R85). -/
def opcodeRow : Instr → Option (Word × Word)
  | .bsRead _ => some (0x10000000#32, 0xFF0000FF#32)
  | .bsUpdate _ _ => some (0x11000000#32, 0xFF000000#32)
  | .bsErase _ => some (0x12000000#32, 0xFF0000FF#32)
  | .bsClrbits _ _ => some (0x13000000#32, 0xFF000000#32)
  | .rtcSethm _ _ => some (0x20000000#32, 0xFFFF0000#32)
  | .rtcPersist => some (0x21000000#32, 0xFFFFFFFF#32)
  | .rtcRestore => some (0x22000000#32, 0xFFFFFFFF#32)
  | .rtcGetsec => some (0x28000000#32, 0xFFFFFFFF#32)
  | .rtcGetmsm => some (0x29000000#32, 0xFFFFFFFF#32)
  | .rtcGetdays => some (0x2A000000#32, 0xFFFFFFFF#32)
  | .rtcGethours => some (0x2B000000#32, 0xFFFFFFFF#32)
  | .rtcGetmins => some (0x2C000000#32, 0xFFFFFFFF#32)
  | .gcmEncrypt _ _ _ => some (0x30000000#32, 0xFF0F0000#32)
  | .gcmDecrypt _ _ _ => some (0x31000000#32, 0xFF0F0000#32)
  | .obWr _ _ => some (0x40000000#32, 0xFF000000#32)
  | .obRd _ => some (0x41000000#32, 0xFF0000FF#32)
  | .rtcTick => none

/-! ### The host's question: a row of spec/opcode_table.json -/

/-- What is presented for the low `nbits` bits of `w` (log entry 18). A row of at most eight bits is the tick port's,
whose one-bit encoding `1` is a pulse (30_encoding R85); every other row is a 32-bit command word, zero above `nbits`. -/
def tablePortWord (nbits w : Nat) : Option PortWord :=
  if nbits ≤ 8 then
    if w % 2 ^ nbits = 1 then some .pulse else none
  else some (.command (BitVec.ofNat 32 (w % 2 ^ nbits)))

/-- The instruction the decoder reads from an opcode-table word. -/
def decodeTableWord (nbits w : Nat) : Option Instr :=
  match tablePortWord nbits w with
  | none => none
  | some p => (decode p).toOption

end Sys2Proof
end

