-- ==== Sys2Proof/Machine/State.lean ====
section
/-! DEFINITION. The state of the block (10_state), the events that reach it (00_scope R17), the reasons a step can stop
(60_exceptions R240, R241), and the state after reset (10_state R32). Plain data. -/

namespace Sys2Proof.Machine

/-- A byte-wide space: (address, byte) pairs with strictly rising addresses, none equal to what an unlisted address
reads as. What an unlisted address reads as is `nvErased` for NV and `obCleared` for OB (Machine/Ops.lean). -/
abbrev Memory := List Host.Cell

/-- An entry of `NVLOG`: one physical operation on the cell array (10_state R27). -/
inductive NvOp where
  /-- `E(a)`: nv_erase. -/
  | erase (a : Nat)
  /-- `W(a, v)`: nv_write. -/
  | write (a : Nat) (v : Byte)
  /-- `EW(a, v)`: nv_erase_write. -/
  | eraseWrite (a : Nat) (v : Byte)
deriving DecidableEq, Repr

/-- One event of an execution, `CMD w`, `TICK` or `RESET` (00_scope R17). -/
inductive Event where
  /-- `CMD w` (a command word on the command port) or `TICK` (a pulse on the tick port). A `TICK` written after an
  accepted `RTC.SETHM` is taken after both of its steps. -/
  | port (p : PortWord)
  /-- A `TICK` that is taken before the second step of an accepted `RTC.SETHM`, where the event list writes
  `RTC.SETHM.A`, `TICK`, `RTC.SETHM.B` (00_scope R17, 30_encoding R100). With no such step outstanding it is a `TICK`. -/
  | tickInCommand
  /-- `RESET`: power-up (70_reset R280). -/
  | reset
deriving DecidableEq, Repr

/-- Where the command port stands between two atomic steps (00_scope R16, 41_rtc R145). -/
inductive Activity where
  /-- No command is running. -/
  | idle
  /-- An accepted `RTC.SETHM` has taken its step A and its step B is outstanding. -/
  | setterStepB
deriving DecidableEq, Repr

/-- Everything the spec gives the block, with the events still to come. -/
structure State where
  /-- The configuration record, hardwired (00_scope R7, 10_state R30; log entry 2). -/
  config : Config
  /-- `secondsLT` (10_state R23). -/
  secondsLT : Byte
  /-- `minutesLT`, the source's minutesSinceMidnightLT (10_state R23). -/
  minutesLT : Half
  /-- `daysSinceEpoch` (10_state R23). -/
  daysSinceEpoch : Half
  /-- The non-volatile cell array `NV` (10_state R25). -/
  nv : Memory
  /-- `NVLOG`, oldest entry first (10_state R27). -/
  nvlog : List NvOp
  /-- The operand buffer `OB` (10_state R28). -/
  ob : Memory
  /-- What the command port is doing (10_state R32, "context"). -/
  activity : Activity
  /-- The response port: the word the latest command gave, none while none is pending (30_encoding R84; log entry 5). -/
  response : Option Word
  /-- The model's own field: the events still to come, in the order they are taken (00_scope R17; log entry 1). -/
  inputs : List Event
deriving DecidableEq, Repr

/-- The outcome "fault" of 60_exceptions R242. The block itself goes on after either (R240, R260): the reason carries
the state it is left in, with its response word, and `Fault.after` gives it (log entry 4). -/
inductive Fault where
  /-- `ILLEGAL`, status code 1: raised by the step for a word that is no command (60_exceptions R240). Safe: the run
  stops where the block would go on, in the state carried. -/
  | illegal (after : State)
  /-- `ADDRESS`, status code 2: raised by `BS.*` when `ADDR ≥ NV_SIZE` and by `OB.*` when `ADDR ≥ 1024`
  (60_exceptions R241). Safe: the run stops where the block would go on, in the state carried. -/
  | address (after : State)
deriving DecidableEq, Repr

/-- Refusals. No instruction of this block is refused. -/
inductive Refusal where
  /-- An instruction without a meaning, raised by exec's arm for it; no arm raises it. Safe. -/
  | notModelled (mnemonic : String)
deriving DecidableEq, Repr

/-- The first launch of a block never used, after RESET (10_state R32): counters 0, every NV cell at the erased value,
NVLOG empty, every OB byte zero, idle, no response pending, no tick pending; the default configuration. -/
def State.reset : State where
  config := Config.default
  secondsLT := 0#8
  minutesLT := 0#16
  daysSinceEpoch := 0#16
  nv := []
  nvlog := []
  ob := []
  activity := .idle
  response := none
  inputs := []

end Sys2Proof.Machine
end

