-- ==== Sys2Proof/Machine/Flags.lean ====
section
/-! DEFINITION. The response word and its FLAG bit (30_encoding R84). The block keeps no flags (10_state R22): each
boolean result goes into the response word of its command. -/

namespace Sys2Proof.Machine

/-- The three statuses that are produced (30_encoding R84, 00_scope R12). -/
inductive Status where
  | ok
  | illegal
  | address
deriving DecidableEq, Repr

/-- `STATUS`, bits 31:30; 3 is never produced (30_encoding R84). -/
def statusCode : Status → BitVec 2
  | .ok => 0#2
  | .illegal => 1#2
  | .address => 2#2

/-- `respond(status, flag, value)`: STATUS 31:30, zeros 29:17, FLAG 16, VALUE 15:0 (30_encoding R84). -/
def responseWord (status : Status) (flag : Bool) (value : Half) : Word :=
  statusCode status ++ 0#13 ++ BitVec.ofBool flag ++ value

/-- `STATUS = Rsp[31:30]` (30_encoding R84). -/
def responseStatus (rsp : Word) : BitVec 2 := rsp.extractLsb' 30 2

/-- `Rsp[29:17]`, always zero (30_encoding R84). -/
def responseZeros (rsp : Word) : BitVec 13 := rsp.extractLsb' 17 13

/-- `FLAG = Rsp[16]` (30_encoding R84). -/
def responseFlag (rsp : Word) : Bool := rsp.getLsbD 16

/-- `VALUE = Rsp[15:0]` (30_encoding R84). -/
def responseValue (rsp : Word) : Half := rsp.extractLsb' 0 16

/-- A byte result, zero-extended to the 16 bits of VALUE (00_scope R9, 30_encoding R84). -/
def byteValue (b : Byte) : Half := b.zeroExtend 16

end Sys2Proof.Machine
end

