-- ==== Sys2Proof/Machine/Ops.lean ====
section
/-! DEFINITION. The named operations over memory and registers: the two spaces (20_memory), the primitives of the cell
array (40_bytestore R111 to R114), responses, soft and hard faults (60_exceptions R240 to R243), and the reset event
(70_reset R280). -/

namespace Sys2Proof.Machine

/-! ### A byte-wide space -/

/-- The byte at address `a`, where an unlisted address reads as `d`. -/
def Memory.read (d : Byte) (a : Nat) : Memory → Byte
  | [] => d
  | (b, x) :: m => if b = a then x else Memory.read d a m

/-- An entry put before the first entry of a higher address. -/
def Memory.insert (a : Nat) (v : Byte) : Memory → Memory
  | [] => [(a, v)]
  | (b, x) :: m => if a < b then (a, v) :: (b, x) :: m else (b, x) :: Memory.insert a v m

/-- The space without an entry at address `a`. -/
def Memory.remove (a : Nat) (m : Memory) : Memory := m.filter fun c => c.1 ≠ a

/-- The space with `v` at address `a`; no entry where `v` is what an unlisted address reads as. -/
def Memory.write (d : Byte) (a : Nat) (v : Byte) (m : Memory) : Memory :=
  if v = d then Memory.remove a m else Memory.insert a v (Memory.remove a m)

/-- The canonical form: addresses strictly rising, no entry equal to what an unlisted address reads as. -/
abbrev Memory.wf (d : Byte) (m : Memory) : Prop :=
  m.Pairwise (fun x y => x.1 < y.1) ∧ ∀ c ∈ m, c.2 ≠ d

/-- Every listed address is an address of a space of `n` cells. -/
abbrev Memory.within (n : Nat) (m : Memory) : Prop := ∀ c ∈ m, c.1 < n

/-- What an unlisted NV cell reads as: the erased value, the state of a cell never written (10_state R32). -/
def nvErased : Byte := 0xFF#8

/-- What an unlisted OB byte reads as: its value after reset (10_state R32). -/
def obCleared : Byte := 0x00#8

/-! ### The cell array: the four primitives of the capability trait -/

/-- `nv_read(a)`: changes nothing, logs nothing (40_bytestore R114). -/
def nvRead (a : Nat) (s : State) : Byte := Memory.read nvErased a s.nv

/-- A cell set to `v` and the physical operation that did it logged (10_state R25, R27). -/
def nvPerform (op : NvOp) (a : Nat) (v : Byte) (s : State) : State :=
  { s with nv := Memory.write nvErased a v s.nv, nvlog := s.nvlog ++ [op] }

/-- `nv_erase(a)`: sets every bit to 1 (40_bytestore R111). -/
def nvErase (a : Nat) (s : State) : State := nvPerform (.erase a) a 0xFF#8 s

/-- `nv_write(a, v)`: can only clear bits (40_bytestore R112). -/
def nvWrite (a : Nat) (v : Byte) (s : State) : State := nvPerform (.write a v) a (nvRead a s &&& v) s

/-- `nv_erase_write(a, v)`: reaches any value (40_bytestore R113). -/
def nvEraseWrite (a : Nat) (v : Byte) (s : State) : State := nvPerform (.eraseWrite a v) a v s

/-- What one logged physical operation makes of the cell at `a` that held `old` (40_bytestore R111 to R113). -/
def NvOp.apply (op : NvOp) (a : Nat) (old : Byte) : Byte :=
  match op with
  | .erase b => if b = a then 0xFF#8 else old
  | .write b v => if b = a then old &&& v else old
  | .eraseWrite b v => if b = a then v else old

/-- What a list of physical operations, oldest first, makes of the cell at `a` that held `old`. -/
def replayNvlog (ops : List NvOp) (a : Nat) (old : Byte) : Byte :=
  ops.foldl (fun cur op => op.apply a cur) old

/-- `eraseCount(a)`: the `E(a)` and `EW(a, _)` entries (10_state R27). -/
def eraseCount (a : Nat) (log : List NvOp) : Nat :=
  log.countP fun op => match op with
    | .erase b => b == a
    | .write _ _ => false
    | .eraseWrite b _ => b == a

/-- `writeCount(a)`: the `W(a, _)` and `EW(a, _)` entries (10_state R27). -/
def writeCount (a : Nat) (log : List NvOp) : Nat :=
  log.countP fun op => match op with
    | .erase _ => false
    | .write b _ => b == a
    | .eraseWrite b _ => b == a

/-! ### The operand buffer -/

/-- `OB[o]` (00_scope R11). -/
def obRead (o : Nat) (s : State) : Byte := Memory.read obCleared o s.ob

/-- `OB[o] <- v` (00_scope R11). -/
def obWrite (o : Nat) (v : Byte) (s : State) : State := { s with ob := Memory.write obCleared o v s.ob }

/-- `OB[off .. off+n-1]`, first byte first (00_scope R10). -/
def obReadBytes (off n : Nat) (s : State) : Bytes := (List.range n).map fun i => obRead (off + i) s

/-- `OB[off+i] <- X[i]` for every byte of `X` (43_gcm R210). -/
def obWriteBytes (off : Nat) : Bytes → State → State
  | [], s => s
  | b :: bs, s => obWriteBytes (off + 1) bs (obWrite off b s)

/-! ### Completion (00_scope R12) -/

/-- The response word is put on the response port (30_encoding R84). -/
def respond (status : Status) (flag : Bool) (value : Half) (s : State) : State :=
  { s with response := some (responseWord status flag value) }

/-- A command that ran to completion: `respond(OK, flag, value)` (00_scope R12). -/
def complete (flag : Bool) (value : Half) (s : State) : Host.Outcome State Fault Refusal :=
  .next (respond .ok flag value s)

/-- `raise Fault(ILLEGAL)`: no state change, `respond(ILLEGAL, false, 0)` (60_exceptions R240, R242). -/
def raiseIllegal (s : State) : Host.Outcome State Fault Refusal := .fault (.illegal (respond .illegal false 0#16 s))

/-- `raise Fault(ADDRESS)`: no state change, `respond(ADDRESS, false, 0)` (60_exceptions R241, R242). -/
def raiseAddress (s : State) : Host.Outcome State Fault Refusal := .fault (.address (respond .address false 0#16 s))

/-- The state the block is left in by a fault: the next command is accepted there as if the faulting word had not been
presented (60_exceptions R240, R260). -/
def Fault.after : Fault → State
  | .illegal s => s
  | .address s => s

/-- The state the block is left in by an outcome, a fault included; none only for a refusal. -/
def stateAfter : Host.Outcome State Fault Refusal → Option State
  | .next s => some s
  | .fault r => some r.after
  | .refused _ => none

/-! ### The reset event -/

/-- `RESET`: the volatile state takes its reset values, NV and NVLOG stay (70_reset R280, 10_state R32). -/
def applyReset (s : State) : State :=
  { s with
    secondsLT := 0#8
    minutesLT := 0#16
    daysSinceEpoch := 0#16
    ob := []
    activity := .idle
    response := none }

end Sys2Proof.Machine
end

