-- ==== Sys2Proof/Machine/Operands.lean ====
section
/-! DEFINITION. Operand forms: the address operands of the two spaces (20_memory R51), the operand buffer's layout
(10_state R28), and what the GCM commands read from it (43_gcm R200, R207). -/

namespace Sys2Proof.Machine

/-- `ADDR` is an address of NV: 0 to `NV_SIZE`-1 (20_memory R50, R51). -/
abbrev nvValid (addr : Half) (s : State) : Prop := addr.toNat < s.config.nvSize

/-- `ADDR` is an offset of OB: 0 to 1023 (20_memory R50, R51). -/
abbrev obValid (off : Half) : Prop := off.toNat < obSize

/-! ### The layout of the operand buffer (10_state R28) -/

/-- `KEYLEN`. -/
def obKeyLen : Nat := 0x000
/-- `IVLEN`. -/
def obIvLen : Nat := 0x001
/-- `KEY[0..15]`. -/
def obKey : Nat := 0x010
/-- `IV[0..11]`. -/
def obIv : Nat := 0x020
/-- `TAG[0..15]`. -/
def obTag : Nat := 0x030
/-- `AAD[0..255]`. -/
def obAad : Nat := 0x100
/-- `IN[0..255]`. -/
def obIn : Nat := 0x200
/-- `OUT[0..255]`. -/
def obOut : Nat := 0x300

/-! ### The operands of a GCM command (43_gcm R200) -/

/-- `K`, 16 bytes. -/
def gcmKey (s : State) : Bytes := obReadBytes obKey 16 s

/-- `IV`, 12 bytes. -/
def gcmIv (s : State) : Bytes := obReadBytes obIv 12 s

/-- `TAG`, 16 bytes. -/
def gcmTagIn (s : State) : Bytes := obReadBytes obTag 16 s

/-- The `M` bytes of associated data. -/
def gcmAad (m : Byte) (s : State) : Bytes := obReadBytes obAad m.toNat s

/-- The `N` bytes of input text. -/
def gcmText (n : Byte) (s : State) : Bytes := obReadBytes obIn n.toNat s

/-- `gcm_validate()` (43_gcm R207). -/
def gcmValidate (p : PresentFlags) (s : State) : Bool :=
  decide (obRead obKeyLen s = 16#8) && decide (obRead obIvLen s = 12#8) && p.pIn && p.pAad && p.pOut && p.pTag

end Sys2Proof.Machine
end

