-- ==== Sys2Proof/Machine/ByteStore.lean ====
section
/-! DEFINITION. The byte store unit: the three mutators (40_bytestore R115 to R117) and the four BS commands (R118 to
R121). -/

namespace Sys2Proof.Machine

/-- `smartErase(a) -> erased` (40_bytestore R116, laws R122). -/
def smartErase (a : Nat) (s : State) : State × Bool :=
  if nvRead a s = 0xFF#8 then (s, false)
  else if s.config.splitEw then (nvErase a s, true)
  else (nvEraseWrite a 0xFF#8 s, true)

/-- `smartClearBits(a, mask) -> wrote` (40_bytestore R117, laws R122). -/
def smartClearBits (a : Nat) (mask : Byte) (s : State) : State × Bool :=
  if nvRead a s &&& mask = nvRead a s then (s, false)
  else if s.config.splitEw then (nvWrite a (nvRead a s &&& mask) s, true)
  else (nvEraseWrite a (nvRead a s &&& mask) s, true)

/-- `smartUpdate(a, v) -> changed`: the tests are made in this order (40_bytestore R115, laws R122). -/
def smartUpdate (a : Nat) (v : Byte) (s : State) : State × Bool :=
  if nvRead a s = v then (s, false)
  else if v = 0xFF#8 then smartErase a s
  else if nvRead a s &&& v = v then smartClearBits a v s
  else (nvEraseWrite a v s, true)

/-- `BS.READ addr` (40_bytestore R118). -/
def execBsRead (addr : Half) (s : State) : Host.Outcome State Fault Refusal :=
  if nvValid addr s then complete false (byteValue (nvRead addr.toNat s)) s
  else raiseAddress s

/-- `BS.UPDATE addr, value` (40_bytestore R119). -/
def execBsUpdate (addr : Half) (value : Byte) (s : State) : Host.Outcome State Fault Refusal :=
  if nvValid addr s then
    complete (smartUpdate addr.toNat value s).2 0#16 (smartUpdate addr.toNat value s).1
  else raiseAddress s

/-- `BS.ERASE addr` (40_bytestore R120). -/
def execBsErase (addr : Half) (s : State) : Host.Outcome State Fault Refusal :=
  if nvValid addr s then complete (smartErase addr.toNat s).2 0#16 (smartErase addr.toNat s).1
  else raiseAddress s

/-- `BS.CLRBITS addr, mask` (40_bytestore R121). -/
def execBsClrbits (addr : Half) (mask : Byte) (s : State) : Host.Outcome State Fault Refusal :=
  if nvValid addr s then
    complete (smartClearBits addr.toNat mask s).2 0#16 (smartClearBits addr.toNat mask s).1
  else raiseAddress s

end Sys2Proof.Machine
end

