-- ==== Sys2Proof/Machine/Aes.lean ====
section
/-! DEFINITION. The AES-128 forward cipher (42_aes128), a function of its arguments and of constants; the GCM unit uses
nothing else of it. Blocks, words and keys are byte strings (R181). -/

namespace Sys2Proof.Machine

/-- Byte-by-byte XOR of two byte strings of one length. -/
def xorBytes (x y : Bytes) : Bytes := List.zipWith (fun a b => a ^^^ b) x y

/-! ### GF(2^8) (42_aes128 R182) -/

/-- Multiplication by 2 with the reduction polynomial 0x11B (42_aes128 R182). -/
def xtime (a : Byte) : Byte := (a <<< 1) ^^^ (if a.getLsbD 7 then 0x1B#8 else 0x00#8)

/-- `mul2` (42_aes128 R182). -/
def mul2 (a : Byte) : Byte := xtime a

/-- `mul3` (42_aes128 R182). -/
def mul3 (a : Byte) : Byte := xtime a ^^^ a

/-! ### S-box (42_aes128 R183) -/

/-- The table, row by row: row = high nibble, column = low nibble (42_aes128 R183). -/
def sboxRows : List (List Byte) :=
  [ [0x63, 0x7c, 0x77, 0x7b, 0xf2, 0x6b, 0x6f, 0xc5, 0x30, 0x01, 0x67, 0x2b, 0xfe, 0xd7, 0xab, 0x76],
    [0xca, 0x82, 0xc9, 0x7d, 0xfa, 0x59, 0x47, 0xf0, 0xad, 0xd4, 0xa2, 0xaf, 0x9c, 0xa4, 0x72, 0xc0],
    [0xb7, 0xfd, 0x93, 0x26, 0x36, 0x3f, 0xf7, 0xcc, 0x34, 0xa5, 0xe5, 0xf1, 0x71, 0xd8, 0x31, 0x15],
    [0x04, 0xc7, 0x23, 0xc3, 0x18, 0x96, 0x05, 0x9a, 0x07, 0x12, 0x80, 0xe2, 0xeb, 0x27, 0xb2, 0x75] ] ++
  [ [0x09, 0x83, 0x2c, 0x1a, 0x1b, 0x6e, 0x5a, 0xa0, 0x52, 0x3b, 0xd6, 0xb3, 0x29, 0xe3, 0x2f, 0x84],
    [0x53, 0xd1, 0x00, 0xed, 0x20, 0xfc, 0xb1, 0x5b, 0x6a, 0xcb, 0xbe, 0x39, 0x4a, 0x4c, 0x58, 0xcf],
    [0xd0, 0xef, 0xaa, 0xfb, 0x43, 0x4d, 0x33, 0x85, 0x45, 0xf9, 0x02, 0x7f, 0x50, 0x3c, 0x9f, 0xa8],
    [0x51, 0xa3, 0x40, 0x8f, 0x92, 0x9d, 0x38, 0xf5, 0xbc, 0xb6, 0xda, 0x21, 0x10, 0xff, 0xf3, 0xd2] ] ++
  [ [0xcd, 0x0c, 0x13, 0xec, 0x5f, 0x97, 0x44, 0x17, 0xc4, 0xa7, 0x7e, 0x3d, 0x64, 0x5d, 0x19, 0x73],
    [0x60, 0x81, 0x4f, 0xdc, 0x22, 0x2a, 0x90, 0x88, 0x46, 0xee, 0xb8, 0x14, 0xde, 0x5e, 0x0b, 0xdb],
    [0xe0, 0x32, 0x3a, 0x0a, 0x49, 0x06, 0x24, 0x5c, 0xc2, 0xd3, 0xac, 0x62, 0x91, 0x95, 0xe4, 0x79],
    [0xe7, 0xc8, 0x37, 0x6d, 0x8d, 0xd5, 0x4e, 0xa9, 0x6c, 0x56, 0xf4, 0xea, 0x65, 0x7a, 0xae, 0x08] ] ++
  [ [0xba, 0x78, 0x25, 0x2e, 0x1c, 0xa6, 0xb4, 0xc6, 0xe8, 0xdd, 0x74, 0x1f, 0x4b, 0xbd, 0x8b, 0x8a],
    [0x70, 0x3e, 0xb5, 0x66, 0x48, 0x03, 0xf6, 0x0e, 0x61, 0x35, 0x57, 0xb9, 0x86, 0xc1, 0x1d, 0x9e],
    [0xe1, 0xf8, 0x98, 0x11, 0x69, 0xd9, 0x8e, 0x94, 0x9b, 0x1e, 0x87, 0xe9, 0xce, 0x55, 0x28, 0xdf],
    [0x8c, 0xa1, 0x89, 0x0d, 0xbf, 0xe6, 0x42, 0x68, 0x41, 0x99, 0x2d, 0x0f, 0xb0, 0x54, 0xbb, 0x16] ]

/-- `SBOX[a]` (42_aes128 R183). -/
def sbox (a : Byte) : Byte := (sboxRows.getD (a.toNat / 16) []).getD (a.toNat % 16) 0#8

/-! ### Round functions (42_aes128 R184 to R187) -/

/-- `SubBytes` (42_aes128 R184). -/
def subBytes (s : Bytes) : Bytes := s.map sbox

/-- The index list `p` of ShiftRows: `s'[i] = s[p[i]]` (42_aes128 R185). -/
def shiftRowsIndex : List Nat := [0, 5, 10, 15, 4, 9, 14, 3, 8, 13, 2, 7, 12, 1, 6, 11]

/-- `ShiftRows` (42_aes128 R185). -/
def shiftRows (s : Bytes) : Bytes := shiftRowsIndex.map fun i => s.getD i 0#8

/-- `MixColumns` on one column (42_aes128 R186). -/
def mixColumn (a0 a1 a2 a3 : Byte) : Bytes :=
  [ mul2 a0 ^^^ mul3 a1 ^^^ a2 ^^^ a3,
    a0 ^^^ mul2 a1 ^^^ mul3 a2 ^^^ a3,
    a0 ^^^ a1 ^^^ mul2 a2 ^^^ mul3 a3,
    mul3 a0 ^^^ a1 ^^^ a2 ^^^ mul2 a3 ]

/-- `MixColumns`: bytes fill the state column by column (42_aes128 R181, R186). -/
def mixColumns : Bytes → Bytes
  | a0 :: a1 :: a2 :: a3 :: rest => mixColumn a0 a1 a2 a3 ++ mixColumns rest
  | _ => []

/-- `AddRoundKey` (42_aes128 R187). -/
def addRoundKey (s rk : Bytes) : Bytes := xorBytes s rk

/-! ### Key expansion (42_aes128 R188) -/

/-- `RCON[1..10]`; index 0 is not used (42_aes128 R188). -/
def rcon (i : Nat) : Byte :=
  [0x00, 0x01, 0x02, 0x04, 0x08, 0x10, 0x20, 0x40, 0x80, 0x1b, 0x36].getD i 0x00#8

/-- `RotWord` (42_aes128 R188). -/
def rotWord (t : Bytes) : Bytes := t.drop 1 ++ t.take 1

/-- `SubWord` (42_aes128 R188). -/
def subWord (t : Bytes) : Bytes := t.map sbox

/-- The word that `w[j-4]` is XORed with, from `t = w[j-1]` (42_aes128 R188). -/
def scheduleWord (j : Nat) (t : Bytes) : Bytes :=
  if j % 4 = 0 then xorBytes (subWord (rotWord t)) [rcon (j / 4), 0#8, 0#8, 0#8] else t

/-- The words `w[0..j]` from the words `w[0..j-1]` (42_aes128 R188). -/
def expandWord (w : List Bytes) (j : Nat) : List Bytes :=
  w ++ [xorBytes (w.getD (j - 4) []) (scheduleWord j (w.getD (j - 1) []))]

/-- `w[0..3]`: the key, word by word (42_aes128 R181, R188). -/
def keyWords (key : Bytes) : List Bytes :=
  (List.range 4).map fun j => (key.drop (4 * j)).take 4

/-- `key_expand(K)`: the 44 words (42_aes128 R188). -/
def keyExpand (key : Bytes) : List Bytes := (List.range' 4 40).foldl expandWord (keyWords key)

/-- Round key `r`: four words, 16 bytes (42_aes128 R188). -/
def roundKey (w : List Bytes) (r : Nat) : Bytes :=
  w.getD (4 * r) [] ++ w.getD (4 * r + 1) [] ++ w.getD (4 * r + 2) [] ++ w.getD (4 * r + 3) []

/-! ### The cipher (42_aes128 R189) -/

/-- One of the rounds 1 to 9 (42_aes128 R189). -/
def aesRound (w : List Bytes) (s : Bytes) (r : Nat) : Bytes :=
  addRoundKey (mixColumns (shiftRows (subBytes s))) (roundKey w r)

/-- The rounds after the key expansion; round 10 has no MixColumns (42_aes128 R189). -/
def aesRounds (w : List Bytes) (block : Bytes) : Bytes :=
  addRoundKey
    (shiftRows (subBytes ((List.range' 1 9).foldl (aesRound w) (addRoundKey block (roundKey w 0)))))
    (roundKey w 10)

/-- `aes_encrypt(K, B)` (42_aes128 R189). -/
def aesEncrypt (key block : Bytes) : Bytes := aesRounds (keyExpand key) block

end Sys2Proof.Machine
end

