-- ==== Sys2Proof/Machine/Gcm.lean ====
section
/-! DEFINITION. The AES-128-GCM unit: its functions (43_gcm R201 to R208) and the commands `GCM.ENCRYPT` and
`GCM.DECRYPT` (R210, R215). The round keys and intermediate values are local to one command (10_state R29). -/

namespace Sys2Proof.Machine

/-! ### Byte strings and integers (00_scope R10) -/

/-- `int_be(X)`: most significant byte first (00_scope R10). -/
def intBe (x : Bytes) : Nat := x.foldl (fun acc b => acc * 256 + b.toNat) 0

/-- The big-endian encoding of `v` in `k` bytes, the low `8k` bits of it (00_scope R10). -/
def beBytes : Nat → Nat → Bytes
  | 0, _ => []
  | k + 1, v => beBytes k (v / 256) ++ [BitVec.ofNat 8 (v % 256)]

/-- `be32(v)` (00_scope R10). -/
def be32 (v : Nat) : Bytes := beBytes 4 v

/-- `be64(v)` (00_scope R10). -/
def be64 (v : Nat) : Bytes := beBytes 8 v

/-- `0^n`, n zero bytes (00_scope R10). -/
def zeroBytes (n : Nat) : Bytes := List.replicate n 0#8

/-! ### GF(2^128) (43_gcm R201, R202) -/

/-- An element of GF(2^128): a string of 128 bits whose `x_0` is the most significant bit (43_gcm R201). -/
abbrev GfElem := BitVec 128

/-- The element of a 16-byte block: `x_0` is the most significant bit of `X[0]` (43_gcm R201). -/
def gfOfBlock (x : Bytes) : GfElem := BitVec.ofNat 128 (intBe x)

/-- The 16-byte block of an element (43_gcm R201). -/
def blockOfGf (x : GfElem) : Bytes := beBytes 16 x.toNat

/-- `R`: 0xE1 followed by 15 zero bytes (43_gcm R201). -/
def gfR : GfElem := 0xE1#8 ++ 0#120

/-- `V` for the next bit: one place toward higher powers, reduced by `R` (43_gcm R202). -/
def gfShift (v : GfElem) : GfElem := if v.getLsbD 0 then (v >>> 1) ^^^ gfR else v >>> 1

/-- The loop of `gf128_mul` over the bits `i` of `X` still to do, with `Z` and `V` (43_gcm R202). -/
def gfMulLoop (x : GfElem) : List Nat → GfElem → GfElem → GfElem
  | [], z, _ => z
  | i :: is, z, v => gfMulLoop x is (if x.getMsbD i then z ^^^ v else z) (gfShift v)

/-- `gf128_mul(X, Y)` on elements (43_gcm R202). -/
def gfMul (x y : GfElem) : GfElem := gfMulLoop x (List.range 128) 0#128 y

/-- `gf128_mul(X, Y)` on 16-byte blocks (43_gcm R202). -/
def gf128Mul (x y : Bytes) : Bytes := blockOfGf (gfMul (gfOfBlock x) (gfOfBlock y))

/-! ### Counter mode (43_gcm R203, R204) -/

/-- `inc32(X)`: the first twelve bytes never change (43_gcm R203). -/
def inc32 (x : Bytes) : Bytes := x.take 12 ++ be32 ((intBe (x.drop 12) + 1) % 2 ^ 32)

/-- The blocks of `gctr` still to do, from the counter block `cb`; a short last block uses the first bytes of the key
stream block (43_gcm R204). -/
def gctrBlocks (key : Bytes) : Nat → Bytes → Bytes → Bytes
  | 0, _, _ => []
  | k + 1, cb, x => xorBytes (x.take 16) (aesEncrypt key cb) ++ gctrBlocks key k (inc32 cb) (x.drop 16)

/-- `gctr(K, ICB, X)`: `ceil(n/16)` blocks (43_gcm R204). -/
def gctr (key icb x : Bytes) : Bytes := gctrBlocks key ((x.length + 15) / 16) icb x

/-! ### GHASH (43_gcm R205) -/

/-- `pad(X)`: zero bytes to a 16-byte boundary, none when there is nothing to pad (43_gcm R205). -/
def ghashPad (x : Bytes) : Bytes := zeroBytes ((16 - x.length % 16) % 16)

/-- `D`: both strings padded, then their lengths in bits (43_gcm R205). -/
def ghashData (a c : Bytes) : Bytes :=
  a ++ ghashPad a ++ c ++ ghashPad c ++ be64 (8 * a.length) ++ be64 (8 * c.length)

/-- The 16-byte blocks of a byte string, in order, `k` of them. -/
def blocksOf : Nat → Bytes → List Bytes
  | 0, _ => []
  | k + 1, x => x.take 16 :: blocksOf k (x.drop 16)

/-- `Y = (Y ^ D_j) * H` (43_gcm R205). -/
def ghashStep (h y d : Bytes) : Bytes := gf128Mul (xorBytes y d) h

/-- `ghash(H, A, C)` (43_gcm R205). -/
def ghash (h a c : Bytes) : Bytes :=
  (blocksOf ((ghashData a c).length / 16) (ghashData a c)).foldl (ghashStep h) (zeroBytes 16)

/-! ### The construction (43_gcm R206 to R208) -/

/-- The hash subkey `H` (43_gcm R206). -/
def hashSubkey (key : Bytes) : Bytes := aesEncrypt key (zeroBytes 16)

/-- `J0 = IV || 0x00000001` (43_gcm R206). -/
def counterBlock0 (iv : Bytes) : Bytes := iv ++ [0x00#8, 0x00#8, 0x00#8, 0x01#8]

/-- `gcm_tag(K, IV, A, C)`: over the ciphertext in both directions (43_gcm R206). -/
def gcmTag (key iv a c : Bytes) : Bytes :=
  xorBytes (ghash (hashSubkey key) a c) (aesEncrypt key (counterBlock0 iv))

/-- The text under counter mode from `J0+1`: ciphertext of a plaintext and plaintext of a ciphertext (43_gcm R206). -/
def gcmCrypt (key iv x : Bytes) : Bytes := gctr key (inc32 (counterBlock0 iv)) x

/-- `tag_equal(X, Y)`: OR-accumulate of XOR differences, no early exit (43_gcm R208). -/
def tagEqual (x y : Bytes) : Bool := decide ((xorBytes x y).foldl (fun acc b => acc ||| b) 0#8 = 0#8)

/-! ### Commands (43_gcm R210, R215) -/

/-- The ciphertext a `GCM.ENCRYPT` computes from the operand buffer (43_gcm R210). -/
def encryptedText (n : Byte) (s : State) : Bytes := gcmCrypt (gcmKey s) (gcmIv s) (gcmText n s)

/-- The tag a `GCM.ENCRYPT` computes from the operand buffer (43_gcm R210). -/
def encryptedTag (n m : Byte) (s : State) : Bytes :=
  gcmTag (gcmKey s) (gcmIv s) (gcmAad m s) (encryptedText n s)

/-- `GCM.ENCRYPT p, n, m`: outputs are written only after validation (43_gcm R210). -/
def execGcmEncrypt (p : PresentFlags) (n m : Byte) (s : State) : Host.Outcome State Fault Refusal :=
  if gcmValidate p s then
    complete true 0#16 (obWriteBytes obTag (encryptedTag n m s) (obWriteBytes obOut (encryptedText n s) s))
  else complete false 0#16 s

/-- The tag a `GCM.DECRYPT` expects: over the ciphertext in IN (43_gcm R215). -/
def expectedTag (n m : Byte) (s : State) : Bytes :=
  gcmTag (gcmKey s) (gcmIv s) (gcmAad m s) (gcmText n s)

/-- The plaintext a `GCM.DECRYPT` computes, only once the tag has matched (43_gcm R215). -/
def decryptedText (n : Byte) (s : State) : Bytes := gcmCrypt (gcmKey s) (gcmIv s) (gcmText n s)

/-- `GCM.DECRYPT p, n, m`: validation, then the tag, and only then the plaintext (43_gcm R215, 60_exceptions R255). -/
def execGcmDecrypt (p : PresentFlags) (n m : Byte) (s : State) : Host.Outcome State Fault Refusal :=
  if gcmValidate p s then
    if tagEqual (expectedTag n m s) (gcmTagIn s) then
      complete true 0#16 (obWriteBytes obOut (decryptedText n s) s)
    else complete false 0#16 s
  else complete false 0#16 s

end Sys2Proof.Machine
end

