-- ==== Sys2Proof/Machine/OperandBuffer.lean ====
section
/-! DEFINITION. The operand buffer commands `OB.WR` and `OB.RD` (44_operand_buffer R230, R231). -/

namespace Sys2Proof.Machine

/-- `OB.WR off, byte` (44_operand_buffer R230). -/
def execObWr (off : Half) (byte : Byte) (s : State) : Host.Outcome State Fault Refusal :=
  if obValid off then complete false 0#16 (obWrite off.toNat byte s) else raiseAddress s

/-- `OB.RD off` (44_operand_buffer R231). -/
def execObRd (off : Half) (s : State) : Host.Outcome State Fault Refusal :=
  if obValid off then complete false (byteValue (obRead off.toNat s)) s else raiseAddress s

end Sys2Proof.Machine
end

