-- ==== Sys2Proof/Machine/Rtc.lean ====
section
/-! DEFINITION. The software real-time clock unit: the tick (41_rtc R140), the setter (R143 to R145), the persisted
byte (R146, R149), persist (R147), restore (R150), and the five accessors (R152 to R157). -/

namespace Sys2Proof.Machine

/-! ### Tick -/

/-- `daysSinceEpoch <- (daysSinceEpoch + 1) mod 65536`: the carry out of the minutes (41_rtc R140). -/
def carryDay (s : State) : State :=
  { s with daysSinceEpoch := BitVec.ofNat 16 ((s.daysSinceEpoch.toNat + 1) % 65536) }

/-- The carry out of the seconds: the next minute, or 0 and the next day after 1439 (41_rtc R140). -/
def carryMinute (s : State) : State :=
  if s.minutesLT.toNat + 1 > 1439 then carryDay { s with minutesLT := 0#16 }
  else { s with minutesLT := BitVec.ofNat 16 (s.minutesLT.toNat + 1) }

/-- The atomic step of one tick; seconds are reset to 0, not reduced by 60 (41_rtc R140). -/
def tick (s : State) : State :=
  if s.secondsLT.toNat + s.config.tickLen > 59 then carryMinute { s with secondsLT := 0#8 }
  else { s with secondsLT := BitVec.ofNat 8 (s.secondsLT.toNat + s.config.tickLen) }

/-- `RTC.TICK`: no response word (41_rtc R140). -/
def execRtcTick (s : State) : Host.Outcome State Fault Refusal := .next (tick s)

/-! ### The persisted byte -/

/-- The quarter code: 111, 110, 100, 000 for the four quarters (41_rtc R146). -/
def quarterCode (q : Nat) : Byte :=
  if q = 0 then 0b111#8 else if q = 1 then 0b110#8 else if q = 2 then 0b100#8 else 0b000#8

/-- `hhq_encode(m)`: hour in bits 7:3, quarter code in bits 2:0, for `m` in 0 to 1439 (41_rtc R146). Above 1439 the rule
states no result, and the byte is a free value (DESIGN CHOICE, log entry 25). -/
def hhqEncode (m : Half) : Byte :=
  if m.toNat ≤ 1439 then (BitVec.ofNat 8 (m.toNat / 60) <<< 3) ||| quarterCode (m.toNat % 60 / 15)
  else Config.hhqBeyondDay m

/-- The quarter of a code, none for the four illegal patterns (41_rtc R149). -/
def quarterOfCode (c : BitVec 3) : Option Nat :=
  if c = 0b111#3 then some 0
  else if c = 0b110#3 then some 1
  else if c = 0b100#3 then some 2
  else if c = 0b000#3 then some 3
  else none

/-- `hhq_decode(b)`: minutes, or none for `invalid` (41_rtc R149). -/
def hhqDecode (restoreBias : Nat) (b : Byte) : Option Nat :=
  let hour := (b.extractLsb' 3 5).toNat
  if hour > 23 then none
  else (quarterOfCode (b.extractLsb' 0 3)).map fun q => hour * 60 + q * 15 + restoreBias

/-! ### Persist and restore -/

/-- The stored day counter, low byte at the lower address (20_memory R52). -/
def storedDays (s : State) : Half :=
  nvRead (s.config.nvAddrDays + 1) s ++ nvRead s.config.nvAddrDays s

/-- Both day bytes through the byte store, low byte first (41_rtc R147). -/
def persistDays (d : Half) (s : State) : State :=
  let s' := (smartUpdate s.config.nvAddrDays (d.extractLsb' 0 8) s).1
  (smartUpdate (s.config.nvAddrDays + 1) (d.extractLsb' 8 8) s').1

/-- `persist()`: the HH:quarter byte, then the day counter only when it differs from the stored one (41_rtc R147). -/
def persist (s : State) : State :=
  let s' := (smartUpdate s.config.nvAddrHhq (hhqEncode s.minutesLT) s).1
  if storedDays s' = s.daysSinceEpoch then s' else persistDays s.daysSinceEpoch s'

/-- The day counter is accepted unless it is the all-ones erased sentinel (41_rtc R150). -/
def restoreDays (s : State) : State :=
  if storedDays s = 0xFFFF#16 then s else { s with daysSinceEpoch := storedDays s }

/-- `restore() -> succeeded`: a valid day counter is taken even when the byte is then rejected (41_rtc R150). -/
def restore (s : State) : State × Bool :=
  match hhqDecode s.config.restoreBias (nvRead s.config.nvAddrHhq s) with
  | none => (restoreDays s, false)
  | some r => ({ restoreDays s with minutesLT := BitVec.ofNat 16 r }, true)

/-! ### Commands -/

/-- Step A of the setter: the atomic replacement; the response is still to come (41_rtc R143, R145). -/
def setterStepA (hours minutes : Byte) (s : State) : State :=
  { s with
    minutesLT := BitVec.ofNat 16 (60 * hours.toNat + minutes.toNat)
    activity := .setterStepB
    response := none }

/-- Step B of the setter: persist takes its own snapshot, then the response (41_rtc R143, R145). -/
def setterStepB (s : State) : Host.Outcome State Fault Refusal :=
  complete true 0#16 (persist { s with activity := .idle })

/-- `RTC.SETHM hours, minutes`: the whole command when it is rejected, step A when it is accepted; step B is the next
step of the block (41_rtc R143 to R145). -/
def execRtcSethm (hours minutes : Byte) (s : State) : Host.Outcome State Fault Refusal :=
  if hours.toNat > 23 ∨ minutes.toNat > 59 then complete false 0#16 s
  else .next (setterStepA hours minutes s)

/-- `RTC.PERSIST` (41_rtc R148). -/
def execRtcPersist (s : State) : Host.Outcome State Fault Refusal := complete false 0#16 (persist s)

/-- `RTC.RESTORE` (41_rtc R151). -/
def execRtcRestore (s : State) : Host.Outcome State Fault Refusal := complete (restore s).2 0#16 (restore s).1

/-- `RTC.GETSEC` (41_rtc R152). -/
def execRtcGetsec (s : State) : Host.Outcome State Fault Refusal := complete false (byteValue s.secondsLT) s

/-- `RTC.GETMSM` (41_rtc R153). -/
def execRtcGetmsm (s : State) : Host.Outcome State Fault Refusal := complete false s.minutesLT s

/-- `RTC.GETDAYS` (41_rtc R154). -/
def execRtcGetdays (s : State) : Host.Outcome State Fault Refusal := complete false s.daysSinceEpoch s

/-- `RTC.GETHOURS`: `minutesLT div 60` (41_rtc R156). -/
def execRtcGethours (s : State) : Host.Outcome State Fault Refusal :=
  complete false (BitVec.ofNat 16 (s.minutesLT.toNat / 60)) s

/-- `RTC.GETMINS`: `minutesLT mod 60` (41_rtc R157). -/
def execRtcGetmins (s : State) : Host.Outcome State Fault Refusal :=
  complete false (BitVec.ofNat 16 (s.minutesLT.toNat % 60)) s

end Sys2Proof.Machine
end

