-- ==== Sys2Proof/Machine/Dispatch.lean ====
section
/-! DEFINITION. One arm per instruction of the opcode table (30_encoding R86). -/

namespace Sys2Proof.Machine

def exec (i : Instr) (s : State) : Host.Outcome State Fault Refusal :=
  match i with
  | .bsRead addr => Sys2Proof.Machine.execBsRead addr s
  | .bsUpdate addr value => Sys2Proof.Machine.execBsUpdate addr value s
  | .bsErase addr => Sys2Proof.Machine.execBsErase addr s
  | .bsClrbits addr mask => Sys2Proof.Machine.execBsClrbits addr mask s
  | .rtcSethm hours minutes => Sys2Proof.Machine.execRtcSethm hours minutes s
  | .rtcPersist => Sys2Proof.Machine.execRtcPersist s
  | .rtcRestore => Sys2Proof.Machine.execRtcRestore s
  | .rtcGetsec => Sys2Proof.Machine.execRtcGetsec s
  | .rtcGetmsm => Sys2Proof.Machine.execRtcGetmsm s
  | .rtcGetdays => Sys2Proof.Machine.execRtcGetdays s
  | .rtcGethours => Sys2Proof.Machine.execRtcGethours s
  | .rtcGetmins => Sys2Proof.Machine.execRtcGetmins s
  | .gcmEncrypt p n m => Sys2Proof.Machine.execGcmEncrypt p n m s
  | .gcmDecrypt p n m => Sys2Proof.Machine.execGcmDecrypt p n m s
  | .obWr off byte => Sys2Proof.Machine.execObWr off byte s
  | .obRd off => Sys2Proof.Machine.execObRd off s
  | .rtcTick => Sys2Proof.Machine.execRtcTick s

end Sys2Proof.Machine
end

