-- ==== Sys2Proof/Machine/Ports.lean ====
section
/-! DEFINITION. What the block takes next from its ports (00_scope R14 to R17). The block fetches nothing (10_state
R21): the next event of `inputs` stands where a processor's next instruction would. -/

namespace Sys2Proof.Machine

/-- What one atomic step of the block is (00_scope R16). -/
inductive Action where
  /-- A decoded command, or a tick. -/
  | run (i : Instr)
  /-- A word that is no command (60_exceptions R240). -/
  | illegalWord
  /-- The second step of an accepted `RTC.SETHM` (41_rtc R145). -/
  | finishSetter
  /-- The reset event (70_reset R280). -/
  | powerUp
  /-- No event is left: the block waits (10_state R21). -/
  | wait
deriving DecidableEq, Repr

/-- What a presentation on a port asks for: the decoder decides first (60_exceptions R255). -/
def portAction (p : PortWord) : Action :=
  match decode p with
  | .ok i => .run i
  | .error _ => .illegalWord

/-- The next action while no command runs: the head of the event list. -/
def idleAction : List Event → Action × List Event
  | [] => (.wait, [])
  | .port p :: rest => (portAction p, rest)
  | .tickInCommand :: rest => (portAction .pulse, rest)
  | .reset :: rest => (.powerUp, rest)

/-- The next action between the two steps of an accepted `RTC.SETHM`: only a tick placed there comes before step B; no
command is accepted and no reset is taken there (00_scope R15, R16, R17). -/
def setterAction : List Event → Action × List Event
  | .tickInCommand :: rest => (portAction .pulse, rest)
  | events => (.finishSetter, events)

/-- The next action and the events left after it. -/
def nextAction (s : State) : Action × List Event :=
  match s.activity with
  | .idle => idleAction s.inputs
  | .setterStepB => setterAction s.inputs

/-- The state with the event list `rest`. -/
def withInputs (rest : List Event) (s : State) : State := { s with inputs := rest }

/-- The state in which `p` is the next event taken: presented at the head of the event list, with no command running
(log entry 18). -/
def presentNext (p : PortWord) (s : State) : State :=
  { s with activity := .idle, inputs := .port p :: s.inputs }

end Sys2Proof.Machine
end

