-- ==== Sys2Proof/Machine/Step.lean ====
section
/-! DEFINITION. One atomic step of the block (00_scope R16): it takes the next action and performs it. -/

namespace Sys2Proof.Machine

/-- Perform an action (00_scope R16, 60_exceptions R240, 70_reset R280). -/
def perform (a : Action) (s : State) : Host.Outcome State Fault Refusal :=
  match a with
  | .run i => exec i s
  | .illegalWord => raiseIllegal s
  | .finishSetter => setterStepB s
  | .powerUp => .next (applyReset s)
  | .wait => .next s

/-- One atomic step. -/
def step (s : State) : Host.Outcome State Fault Refusal :=
  perform (nextAction s).1 (withInputs (nextAction s).2 s)

/-- The state with an opcode-table word presented as the next event (log entry 18). -/
def State.withFetchWord (s : State) (nbits w : Nat) : State :=
  match tablePortWord nbits w with
  | some p => presentNext p s
  | none => { s with activity := .idle }

end Sys2Proof.Machine
end

