-- ==== Sys2Proof/Machine/Assembler.lean ====
section
/-! DEFINITION. From lines of the spec's syntax to events (30_encoding R95, R100; 00_scope R17). -/

namespace Sys2Proof.Machine

/-- The present flags of a `P` operand, `P_IN` highest (30_encoding R83). -/
def presentOfNat (p : Nat) : PresentFlags where
  pIn := p.testBit 3
  pAad := p.testBit 2
  pOut := p.testBit 1
  pTag := p.testBit 0

/-- The event that presents an instruction. -/
def eventOf (i : Instr) : Event := .port (encode i)

/-- The events of a line: a `TICK` between `RTC.SETHM.A` and `RTC.SETHM.B` (`inSetter`) is taken between the two steps
(00_scope R17). -/
def lineEvents (inSetter : Bool) : AsmLine → List Event
  | .bsRead a => [eventOf (.bsRead (BitVec.ofNat 16 a))]
  | .bsUpdate a v => [eventOf (.bsUpdate (BitVec.ofNat 16 a) (BitVec.ofNat 8 v))]
  | .bsErase a => [eventOf (.bsErase (BitVec.ofNat 16 a))]
  | .bsClrbits a v => [eventOf (.bsClrbits (BitVec.ofNat 16 a) (BitVec.ofNat 8 v))]
  | .rtcSethm h m => [eventOf (.rtcSethm (BitVec.ofNat 8 h) (BitVec.ofNat 8 m))]
  | .rtcPersist => [eventOf .rtcPersist]
  | .rtcRestore => [eventOf .rtcRestore]
  | .rtcGetsec => [eventOf .rtcGetsec]
  | .rtcGetmsm => [eventOf .rtcGetmsm]
  | .rtcGetdays => [eventOf .rtcGetdays]
  | .rtcGethours => [eventOf .rtcGethours]
  | .rtcGetmins => [eventOf .rtcGetmins]
  | .gcmEncrypt p n m => [eventOf (.gcmEncrypt (presentOfNat p) (BitVec.ofNat 8 n) (BitVec.ofNat 8 m))]
  | .gcmDecrypt p n m => [eventOf (.gcmDecrypt (presentOfNat p) (BitVec.ofNat 8 n) (BitVec.ofNat 8 m))]
  | .obWr a v => [eventOf (.obWr (BitVec.ofNat 16 a) (BitVec.ofNat 8 v))]
  | .obRd a => [eventOf (.obRd (BitVec.ofNat 16 a))]
  | .tick => [if inSetter then .tickInCommand else eventOf .rtcTick]
  | .reset => [.reset]
  | .tickTimes k => List.replicate k (if inSetter then .tickInCommand else eventOf .rtcTick)
  | .obFill off bytes => bytes.zipIdx.map fun b => eventOf (.obWr (BitVec.ofNat 16 (off + b.2)) b.1)
  | .gcmSetup => [eventOf (.obWr 0x000#16 16#8), eventOf (.obWr 0x001#16 12#8)]
  | .sethmA h m => [eventOf (.rtcSethm (BitVec.ofNat 8 h) (BitVec.ofNat 8 m))]
  | .sethmB => []

/-- Whether a line may stand between `RTC.SETHM.A` and `RTC.SETHM.B`: only ticks may (00_scope R15, R16). -/
def mayStandInSetter : AsmLine → Bool
  | .tick => true
  | .tickTimes _ => true
  | .sethmB => true
  | .sethmA _ _ => false
  | .reset => false
  | .gcmSetup => false
  | .obFill _ _ => false
  | .bsRead _ => false
  | .bsUpdate _ _ => false
  | .bsErase _ => false
  | .bsClrbits _ _ => false
  | .rtcSethm _ _ => false
  | .rtcPersist => false
  | .rtcRestore => false
  | .rtcGetsec => false
  | .rtcGetmsm => false
  | .rtcGetdays => false
  | .rtcGethours => false
  | .rtcGetmins => false
  | .gcmEncrypt _ _ _ => false
  | .gcmDecrypt _ _ _ => false
  | .obWr _ _ => false
  | .obRd _ => false

/-- Whether the lines after this one stand between the two steps of a setter. -/
def inSetterAfter (inSetter : Bool) (line : AsmLine) : Bool :=
  match line with
  | .sethmA _ _ => true
  | .sethmB => false
  | _ => inSetter

/-- A line in its place: its operands fit, only ticks stand inside a setter, and `RTC.SETHM.B` stands only there. -/
def lineFits (inSetter : Bool) (line : AsmLine) : Bool :=
  line.wellFormed && (if inSetter then mayStandInSetter line else decide (line ≠ .sethmB))

/-- The event list of a program from a place in or out of a setter; none where a line does not fit. -/
def assembleFrom : Bool → List AsmLine → Option (List Event)
  | inSetter, [] => if inSetter then none else some []
  | inSetter, line :: rest =>
    if lineFits inSetter line then
      (assembleFrom (inSetterAfter inSetter line) rest).map fun events => lineEvents inSetter line ++ events
    else none

/-- The event list of a program (00_scope R17, 30_encoding R95, R100). -/
def assemble (lines : List AsmLine) : Option (List Event) := assembleFrom false lines

end Sys2Proof.Machine
end

