-- ==== Sys2Proof/Safety.lean ====
section
/-! DEFINITION. The terms claims are stated in: the invariant of the block (10_state R24, 30_encoding R84), what an
instruction leaves alone, and what counts as a run without faults (60_exceptions R242). -/

namespace Sys2Proof.Machine

/-! ### The invariant -/

/-- Both spaces are in canonical form and list only their own addresses (20_memory R50). -/
abbrev State.memoriesCanonical (s : State) : Prop :=
  (Memory.wf nvErased s.nv ∧ Memory.within s.config.nvSize s.nv) ∧
  (Memory.wf obCleared s.ob ∧ Memory.within obSize s.ob)

/-- The counters are in their ranges, and `secondsLT` is even when `TICK_LEN = 2` (10_state R24). -/
abbrev State.clockInRange (s : State) : Prop :=
  s.secondsLT.toNat ≤ 59 ∧ s.minutesLT.toNat ≤ 1439 ∧ (s.config.tickLen = 2 → s.secondsLT.toNat % 2 = 0)

/-- A response word never has STATUS 3 and its bits 29:17 are zero (30_encoding R84). -/
def legalResponse (rsp : Word) : Bool := decide (responseStatus rsp ≠ 3#2) && decide (responseZeros rsp = 0#13)

/-- A pending response is a legal word, and none is pending between the setter's two steps (41_rtc R145). -/
abbrev State.portsConsistent (s : State) : Prop :=
  s.response.all legalResponse = true ∧ (s.activity = .setterStepB → s.response = none)

/-- The invariant every step keeps. -/
abbrev State.Inv (s : State) : Prop :=
  s.config.wf ∧ s.memoriesCanonical ∧ s.clockInRange ∧ s.portsConsistent

/-! ### Frames -/

/-- The three counters are as before. -/
abbrev clockFrame (s t : State) : Prop :=
  t.secondsLT = s.secondsLT ∧ t.minutesLT = s.minutesLT ∧ t.daysSinceEpoch = s.daysSinceEpoch

/-- Every cell reads as before and no physical operation was performed. -/
abbrev nvFrame (s t : State) : Prop := (∀ a, nvRead a t = nvRead a s) ∧ t.nvlog = s.nvlog

/-- Every byte of the operand buffer reads as before. -/
abbrev obFrame (s t : State) : Prop := ∀ o, obRead o t = obRead o s

/-- Configuration, activity and remaining events are as before. -/
abbrev controlFrame (s t : State) : Prop :=
  t.config = s.config ∧ t.activity = s.activity ∧ t.inputs = s.inputs

/-- The response pending in `t` is `respond(OK, flag, value)` (30_encoding R84). -/
abbrev answered (t : State) (flag : Bool) (value : Half) : Prop := t.response = some (responseWord .ok flag value)

/-! ### Classes of instructions -/

/-- The commands whose `ADDR` is out of range in `s` (60_exceptions R241). -/
def outOfRange (i : Instr) (s : State) : Prop :=
  match i with
  | .bsRead addr => s.config.nvSize ≤ addr.toNat
  | .bsUpdate addr _ => s.config.nvSize ≤ addr.toNat
  | .bsErase addr => s.config.nvSize ≤ addr.toNat
  | .bsClrbits addr _ => s.config.nvSize ≤ addr.toNat
  | .obWr off _ => 1024 ≤ off.toNat
  | .obRd off => 1024 ≤ off.toNat
  | .rtcSethm _ _ => False
  | .rtcPersist => False
  | .rtcRestore => False
  | .rtcGetsec => False
  | .rtcGetmsm => False
  | .rtcGetdays => False
  | .rtcGethours => False
  | .rtcGetmins => False
  | .gcmEncrypt _ _ _ => False
  | .gcmDecrypt _ _ _ => False
  | .rtcTick => False

/-- The instructions that may change a cell (10_state R25); an accepted `RTC.SETHM` does so in its step B only. -/
def mayChangeCells : Instr → Bool
  | .bsUpdate _ _ => true
  | .bsErase _ => true
  | .bsClrbits _ _ => true
  | .rtcPersist => true
  | .bsRead _ => false
  | .rtcSethm _ _ => false
  | .rtcRestore => false
  | .rtcGetsec => false
  | .rtcGetmsm => false
  | .rtcGetdays => false
  | .rtcGethours => false
  | .rtcGetmins => false
  | .gcmEncrypt _ _ _ => false
  | .gcmDecrypt _ _ _ => false
  | .obWr _ _ => false
  | .obRd _ => false
  | .rtcTick => false

/-- The instructions that may change a byte of the operand buffer (10_state R28, 20_memory R50). -/
def mayChangeBuffer : Instr → Bool
  | .gcmEncrypt _ _ _ => true
  | .gcmDecrypt _ _ _ => true
  | .obWr _ _ => true
  | .bsRead _ => false
  | .bsUpdate _ _ => false
  | .bsErase _ => false
  | .bsClrbits _ _ => false
  | .rtcSethm _ _ => false
  | .rtcPersist => false
  | .rtcRestore => false
  | .rtcGetsec => false
  | .rtcGetmsm => false
  | .rtcGetdays => false
  | .rtcGethours => false
  | .rtcGetmins => false
  | .obRd _ => false
  | .rtcTick => false

/-- The commands that touch only NV or OB and no counter: BS, OB and GCM commands (20_memory R50, R60). -/
def memoryOnly : Instr → Bool
  | .bsRead _ => true
  | .bsUpdate _ _ => true
  | .bsErase _ => true
  | .bsClrbits _ _ => true
  | .gcmEncrypt _ _ _ => true
  | .gcmDecrypt _ _ _ => true
  | .obWr _ _ => true
  | .obRd _ => true
  | .rtcSethm _ _ => false
  | .rtcPersist => false
  | .rtcRestore => false
  | .rtcGetsec => false
  | .rtcGetmsm => false
  | .rtcGetdays => false
  | .rtcGethours => false
  | .rtcGetmins => false
  | .rtcTick => false

/-! ### GCM operands in the buffer -/

/-- All four present flags set (30_encoding R83, 43_gcm R207). -/
abbrev allPresent : PresentFlags := ⟨true, true, true, true⟩

/-- The claimed lengths are the only ones supported (43_gcm R207). -/
abbrev lengthsClaimed (s : State) : Prop := obRead 0x000 s = 16#8 ∧ obRead 0x001 s = 12#8

/-- The tag of the `m` bytes of AAD and the ciphertext `c` under the KEY and IV in the buffer (43_gcm R206). -/
abbrev bufferTag (m : Byte) (c : Bytes) (s : State) : Bytes :=
  gcmTag (obReadBytes 0x010 16 s) (obReadBytes 0x020 12 s) (obReadBytes 0x100 m.toNat s) c

/-- Counter mode from `J0+1` under the KEY and IV in the buffer (43_gcm R206). -/
abbrev bufferCrypt (x : Bytes) (s : State) : Bytes :=
  gctr (obReadBytes 0x010 16 s) (inc32 (obReadBytes 0x020 12 s ++ [0x00#8, 0x00#8, 0x00#8, 0x01#8])) x

/-- The buffer holds a frame whose TAG verifies: what a `GCM.DECRYPT` accepts (43_gcm R215). -/
abbrev authentic (n m : Byte) (s : State) : Prop :=
  lengthsClaimed s ∧ obReadBytes 0x030 16 s = bufferTag m (obReadBytes 0x200 n.toNat s) s

/-- The buffer of `u` is that of `s` with bit `b` of byte `o` flipped. -/
abbrev bitFlipped (o b : Nat) (s u : State) : Prop :=
  ∀ p, obRead p u = if p = o then obRead o s ^^^ (1#8 <<< b) else obRead p s

/-- What a log entry becomes on hardware without split erase and write (40_bytestore R123). -/
def NvOp.degraded : NvOp → NvOp
  | .erase a => .eraseWrite a 0xFF#8
  | .write a v => .eraseWrite a v
  | .eraseWrite a v => .eraseWrite a v

/-- The same block with `SPLIT_EW` set to `b` (00_scope R7). -/
def withSplitEw (b : Bool) (s : State) : State := { s with config := { s.config with splitEw := b } }

/-! ### Runs -/

/-- `k` steps, going on through faults in the state each one leaves the block in (60_exceptions R240, R260). -/
def runThrough : Nat → State → Option State
  | 0, s => some s
  | k + 1, s => (stateAfter (step s)).bind (runThrough k)

/-- A safe run: `k` steps of which none faults (60_exceptions R242: a claim about a program holds only if no word of it
faults). -/
def runsClean (k : Nat) (s : State) : Prop := ∃ t, Host.Core.run Sys2Proof.core k s = .next t

end Sys2Proof.Machine
end

