-- ==== Sys2Proof/Certificates/Slice0/Obligations.lean ====
section
/-! DEFINITION. The statements for the provers, each formalising what the spec says an instruction or the block does. -/

open Sys2Proof Sys2Proof.Machine

/-- For every instruction of the opcode table and every value of every field, decode (encode i) is i: no bit of an
encoding is dropped. (R81, R86, R95) -/
def Obligations.DecodeOfEncodeIsTheInstruction : Prop :=
  ∀ i : Instr, decode (encode i) = .ok i

/-- For every word of the command port and for a pulse of the tick port: if it decodes to i, encode i is that very word;
so each instruction has one word. (R81, R87) -/
def Obligations.EncodeOfDecodeIsTheWord : Prop :=
  ∀ (p : PortWord) (i : Instr), decode p = .ok i → encode i = p

/-- A 32-bit word decodes to some instruction iff W & mask = match for one of the sixteen (match, mask) pairs of rule
R86, and the instruction it decodes to is the one of a row it matches. Every other word is rejected. (R86, R87, R88) -/
def Obligations.CommandWordsMatchOpcodeTable : Prop :=
  ∀ w : Word,
    ((∃ i, decode (.command w) = .ok i) ↔ ∃ row ∈ opcodeTable, w &&& row.2 = row.1) ∧
    (∀ i, decode (.command w) = .ok i → ∃ row, opcodeRow i = some row ∧ w &&& row.2 = row.1)

/-- Each of the sixteen command words printed in the table of rule R95 decodes to the instruction of its line, and a
pulse decodes to RTC.TICK. (R95) -/
def Obligations.SyntaxTableWordsDecode : Prop :=
  decode (.command 0x10000800#32) = .ok (.bsRead 0x0008#16) ∧
  decode (.command 0x1100084E#32) = .ok (.bsUpdate 0x0008#16 0x4E#8) ∧
  decode (.command 0x12000800#32) = .ok (.bsErase 0x0008#16) ∧
  decode (.command 0x130008FC#32) = .ok (.bsClrbits 0x0008#16 0xFC#8) ∧
  decode (.command 0x20000914#32) = .ok (.rtcSethm 9#8 20#8) ∧
  decode (.command 0x21000000#32) = .ok .rtcPersist ∧
  decode (.command 0x22000000#32) = .ok .rtcRestore ∧
  decode (.command 0x28000000#32) = .ok .rtcGetsec ∧
  decode (.command 0x29000000#32) = .ok .rtcGetmsm ∧
  decode (.command 0x2A000000#32) = .ok .rtcGetdays ∧
  decode (.command 0x2B000000#32) = .ok .rtcGethours ∧
  decode (.command 0x2C000000#32) = .ok .rtcGetmins ∧
  decode (.command 0x30F01000#32) = .ok (.gcmEncrypt allPresent 16#8 0#8) ∧
  decode (.command 0x31F01000#32) = .ok (.gcmDecrypt allPresent 16#8 0#8) ∧
  decode (.command 0x40000010#32) = .ok (.obWr 0x000#16 16#8) ∧
  decode (.command 0x41003000#32) = .ok (.obRd 0x030#16) ∧
  decode .pulse = .ok .rtcTick

/-- For every status, flag and value: bits 31:30 of the response word are the status code (0 OK, 1 ILLEGAL, 2 ADDRESS),
bits 29:17 are zero, bit 16 is the flag and bits 15:0 the value. (R84) -/
def Obligations.ResponseWordLayout : Prop :=
  ∀ (flag : Bool) (value : Half),
    (∀ st : Status, responseZeros (responseWord st flag value) = 0#13 ∧
      responseFlag (responseWord st flag value) = flag ∧ responseValue (responseWord st flag value) = value) ∧
    responseStatus (responseWord .ok flag value) = 0#2 ∧
    responseStatus (responseWord .illegal flag value) = 1#2 ∧
    responseStatus (responseWord .address flag value) = 2#2

/-- With no command running and a command word or a pulse at the head of the event list that decodes to i, the step is
exec i on the state whose event list is the rest; nothing else is done around exec. (R16, R85, R87) -/
def Obligations.StepRunsDecodedInstruction : Prop :=
  ∀ (s : State) (p : PortWord) (rest : List Event) (i : Instr),
    s.activity = .idle → s.inputs = .port p :: rest → decode p = .ok i →
    step s = exec i { s with inputs := rest }

/-- A tick placed inside a command is exec RTC.TICK on the state with the rest of the events. While an accepted
RTC.SETHM is between its steps, any other head of the event list (a command, a later tick, a reset, or none) stays
in the list and the step completes the setter: afterwards the port is idle with the response FLAG = 1 pending and
the event list is as before. The model's own part (log entry 6): that such a tick with no setter step outstanding is
an ordinary tick is a design choice that no rule gives, and that every other event waits for step B is deduced from
the rules. (R16, R17, R145) -/
def Obligations.StepBetweenSetterSteps : Prop :=
  (∀ (s : State) (rest : List Event), s.inputs = .tickInCommand :: rest →
    step s = exec .rtcTick { s with inputs := rest }) ∧
  (∀ s : State, s.activity = .setterStepB → (∀ rest, s.inputs ≠ .tickInCommand :: rest) →
    ∃ t, step s = .next t ∧ t.activity = .idle ∧ answered t true 0#16 ∧ t.inputs = s.inputs)

/-- With no command running and RESET at the head of the events, the step answers a next state with secondsLT, minutesLT
and daysSinceEpoch 0 (values that are the spec's own decision, log entry 9), every operand buffer byte 0x00, every
cell and NVLOG as before, the port idle, no response pending, and the configuration kept. Between the setter's steps
a RESET at the head is not taken: it stays at the head. (R32, R280) -/
def Obligations.ResetEventRestoresVolatileState : Prop :=
  (∀ (s : State) (rest : List Event), s.activity = .idle → s.inputs = .reset :: rest →
    ∃ t, step s = .next t ∧ t.secondsLT = 0#8 ∧ t.minutesLT = 0#16 ∧ t.daysSinceEpoch = 0#16 ∧
      (∀ o, obRead o t = 0x00#8) ∧ nvFrame s t ∧ t.activity = .idle ∧ t.response = none ∧
      t.config = s.config ∧ t.inputs = rest) ∧
  (∀ (s : State) (rest : List Event), s.activity = .setterStepB → s.inputs = .reset :: rest →
    ∃ t, step s = .next t ∧ clockFrame s t ∧ obFrame s t ∧ t.inputs = .reset :: rest)

/-- The state is unchanged by a step while no command runs and no event is left. That a step of a waiting block answers
the same state is the model's choice (log entry 17); the spec says only that the block waits. (R14, R21) -/
def Obligations.IdleBlockWaits : Prop :=
  ∀ s : State, s.activity = .idle → s.inputs = [] → step s = .next s

/-- With no command running and at the head of the events a word that matches no row of the opcode table, the step is
the fault ILLEGAL; the state it leaves the block in has every counter, cell, log entry and buffer byte as before,
the response word 0x40000000 (STATUS 1, FLAG 0, VALUE 0), the port idle and the rest of the events, so the next
event is taken as if the word had not been presented. (R240) -/
def Obligations.IllegalWordFaultsAndChangesNothing : Prop :=
  ∀ (s : State) (w : Word) (rest : List Event),
    s.activity = .idle → s.inputs = .port (.command w) :: rest → (∀ row ∈ opcodeTable, w &&& row.2 ≠ row.1) →
    ∃ t, step s = .fault (.illegal t) ∧ t.response = some 0x40000000#32 ∧
      clockFrame s t ∧ nvFrame s t ∧ obFrame s t ∧ t.activity = .idle ∧ t.config = s.config ∧ t.inputs = rest

/-- BS.READ, BS.UPDATE, BS.ERASE and BS.CLRBITS with ADDR >= NV_SIZE, and OB.WR and OB.RD with ADDR >= 1024, fault
ADDRESS and leave every counter, cell, log entry and buffer byte as before with the response word 0x80000000; no
other instruction and no other address faults. (R241) -/
def Obligations.AddressFaultExactlyOutOfRange : Prop :=
  ∀ (i : Instr) (s : State),
    (outOfRange i s → ∃ t, exec i s = .fault (.address t) ∧ t.response = some 0x80000000#32 ∧
      clockFrame s t ∧ nvFrame s t ∧ obFrame s t ∧ controlFrame s t) ∧
    (∀ r, exec i s = .fault r → outOfRange i s)

/-- From every state a step answers a next state or one of the two faults of the spec; no instruction is without a
meaning. (R15, R87) -/
def Obligations.NoStepIsRefused : Prop :=
  ∀ (s : State) (r : Refusal), step s ≠ .refused r

/-- Whenever a step faults, the state the block is left in has the counters, the cells and their log, the buffer and the
configuration as before, the port idle, and exactly the faulting event removed from the event list. (R240, R241,
R258, R260) -/
def Obligations.FaultsArePrecise : Prop :=
  ∀ (s : State) (r : Fault), step s = .fault r →
    clockFrame s r.after ∧ nvFrame s r.after ∧ obFrame s r.after ∧ r.after.config = s.config ∧
    r.after.activity = .idle ∧ s.activity = .idle ∧ (∃ p, s.inputs = .port p :: r.after.inputs)

/-- For every address below NV_SIZE, BS.READ answers a next state whose response is OK, FLAG 0, VALUE the cell zero-
extended; counters, cells, log, buffer and control are as before. (R118) -/
def Obligations.BsReadAnswersCell : Prop :=
  ∀ (addr : Half) (s : State), addr.toNat < s.config.nvSize →
    ∃ t, exec (.bsRead addr) s = .next t ∧ answered t false ((nvRead addr.toNat s).zeroExtend 16) ∧
      clockFrame s t ∧ nvFrame s t ∧ obFrame s t ∧ controlFrame s t

/-- For every address below NV_SIZE and every value, BS.UPDATE answers a next state in which the cell holds the value,
FLAG is whether the old value differed, every other cell, the counters, the buffer and the control state are as
before. (R115, R119, R122) -/
def Obligations.BsUpdateReachesTarget : Prop :=
  ∀ (addr : Half) (value : Byte) (s : State), addr.toNat < s.config.nvSize →
    ∃ t, exec (.bsUpdate addr value) s = .next t ∧ nvRead addr.toNat t = value ∧
      answered t (decide (nvRead addr.toNat s ≠ value)) 0#16 ∧
      (∀ a, a ≠ addr.toNat → nvRead a t = nvRead a s) ∧ clockFrame s t ∧ obFrame s t ∧ controlFrame s t

/-- For a completed BS.UPDATE: no operation when the old value equals the target; on hardware with split erase and write
one E for the target 0xFF, one W when the target is reachable by clearing bits, one EW otherwise; without split
erase and write one EW in every case that changes the cell. (R115, R119) -/
def Obligations.BsUpdateOperationByCase : Prop :=
  ∀ (addr : Half) (value : Byte) (s t : State), exec (.bsUpdate addr value) s = .next t →
    t.nvlog = s.nvlog ++
      (if nvRead addr.toNat s = value then []
       else if s.config.splitEw = false then [.eraseWrite addr.toNat value]
       else if value = 0xFF#8 then [.erase addr.toNat]
       else if nvRead addr.toNat s &&& value = value then [.write addr.toNat value]
       else [.eraseWrite addr.toNat value])

/-- For every address below NV_SIZE, BS.ERASE answers a next state in which the cell is 0xFF, FLAG is whether it was
not, the log has grown by one E (or one EW of 0xFF without split erase and write) exactly then, and every other
cell, the counters, the buffer and the control state are as before. (R116, R120) -/
def Obligations.BsEraseLeavesAllOnes : Prop :=
  ∀ (addr : Half) (s : State), addr.toNat < s.config.nvSize →
    ∃ t, exec (.bsErase addr) s = .next t ∧ nvRead addr.toNat t = 0xFF#8 ∧
      answered t (decide (nvRead addr.toNat s ≠ 0xFF#8)) 0#16 ∧
      t.nvlog = s.nvlog ++ (if nvRead addr.toNat s = 0xFF#8 then []
        else if s.config.splitEw then [.erase addr.toNat] else [.eraseWrite addr.toNat 0xFF#8]) ∧
      (∀ a, a ≠ addr.toNat → nvRead a t = nvRead a s) ∧ clockFrame s t ∧ obFrame s t ∧ controlFrame s t

/-- For every address below NV_SIZE and every mask, BS.CLRBITS answers a next state in which the cell is the old value
ANDed with the mask (so no bit that was 0 is 1), FLAG is whether that differs from the old value, the log has grown
by one W (or one EW) of the result exactly then, and every other cell, the counters, the buffer and the control
state are as before. (R117, R121) -/
def Obligations.BsClrbitsKeepsMaskedBits : Prop :=
  ∀ (addr : Half) (mask : Byte) (s : State), addr.toNat < s.config.nvSize →
    ∃ t, exec (.bsClrbits addr mask) s = .next t ∧ nvRead addr.toNat t = nvRead addr.toNat s &&& mask ∧
      nvRead addr.toNat t &&& ~~~(nvRead addr.toNat s) = 0#8 ∧
      answered t (decide (nvRead addr.toNat s &&& mask ≠ nvRead addr.toNat s)) 0#16 ∧
      t.nvlog = s.nvlog ++ (if nvRead addr.toNat s &&& mask = nvRead addr.toNat s then []
        else if s.config.splitEw then [.write addr.toNat (nvRead addr.toNat s &&& mask)]
        else [.eraseWrite addr.toNat (nvRead addr.toNat s &&& mask)]) ∧
      (∀ a, a ≠ addr.toNat → nvRead a t = nvRead a s) ∧ clockFrame s t ∧ obFrame s t ∧ controlFrame s t

/-- For every address and every state, BS.UPDATE to 0xFF and BS.ERASE have the same outcome: the same cells, log and
response, or the same fault. (R122) -/
def Obligations.UpdateToAllOnesIsErase : Prop :=
  ∀ (addr : Half) (s : State), exec (.bsUpdate addr 0xFF#8) s = exec (.bsErase addr) s

/-- For BS.UPDATE, BS.ERASE and BS.CLRBITS: after one completed command, the same command completes again with FLAG 0
and with every cell and the log as the first left them. (R56) -/
def Obligations.StoreCommandsAreIdempotent : Prop :=
  ∀ (addr : Half) (v : Byte) (i : Instr) (s t : State),
    i = .bsUpdate addr v ∨ i = .bsErase addr ∨ i = .bsClrbits addr v → exec i s = .next t →
    ∃ u, exec i t = .next u ∧ answered u false 0#16 ∧ nvFrame t u

/-- For each BS command and every state: completing with SPLIT_EW true, it completes with SPLIT_EW false too, with the
same response and the same cells, and the log entries it adds are those it adds with SPLIT_EW true with EW in place
of E or W. (R123) -/
def Obligations.DegradedModeKeepsContract : Prop :=
  ∀ (addr : Half) (v : Byte) (i : Instr) (s t : State),
    i = .bsRead addr ∨ i = .bsUpdate addr v ∨ i = .bsErase addr ∨ i = .bsClrbits addr v →
    exec i (withSplitEw true s) = .next t →
    ∃ u ops, exec i (withSplitEw false s) = .next u ∧ u.response = t.response ∧
      (∀ a, nvRead a u = nvRead a t) ∧
      t.nvlog = s.nvlog ++ ops ∧ u.nvlog = s.nvlog ++ ops.map NvOp.degraded

/-- For every state, also after a fault: the log only grows, and replaying the entries a step adds, each with the effect
of its primitive (E gives 0xFF, W clears bits, EW gives the value), on the value a cell had gives the value it has,
for every cell. (R25, R27, R111, R112, R113) -/
def Obligations.CellsChangeOnlyThroughLoggedOperations : Prop :=
  ∀ s t : State, stateAfter (step s) = some t →
    ∃ ops, t.nvlog = s.nvlog ++ ops ∧ ∀ a, nvRead a t = replayNvlog ops a (nvRead a s)

/-- exec of every other instruction, the tick among them, leaves every cell and the log as they were when it answers a
next state. Of an accepted RTC.SETHM this speaks of step A alone, which is what exec of it does: its step B, the
following step of the block, writes cells and the log as SetterStepBPersistsAndAnswers states. (R25, R50, R60, R143,
R145) -/
def Obligations.OnlyStoreCommandsAndPersistChangeCells : Prop :=
  ∀ (i : Instr) (s t : State), exec i s = .next t → mayChangeCells i = false → nvFrame s t

/-- On hardware with split erase and write: if a completed BS.UPDATE adds an E or EW entry for its cell, the target has
a 1 bit where the old value has a 0; a completed BS.CLRBITS adds no erase of any cell. (R122) -/
def Obligations.EraseOnlyWhenBitMustRise : Prop :=
  ∀ (addr : Half) (v : Byte) (s t : State), s.config.splitEw = true →
    (exec (.bsUpdate addr v) s = .next t → eraseCount addr.toNat t.nvlog ≠ eraseCount addr.toNat s.nvlog →
      v &&& ~~~(nvRead addr.toNat s) ≠ 0#8) ∧
    (exec (.bsClrbits addr v) s = .next t → ∀ a, eraseCount a t.nvlog = eraseCount a s.nvlog)

/-- From every state RTC.TICK answers a next state. With s = secondsLT + TICK_LEN: up to 59 it is the new secondsLT;
above 59 secondsLT is 0 and minutesLT goes up by one, or, above 1439, minutesLT is 0 and daysSinceEpoch is
(daysSinceEpoch + 1) mod 65536. Cells, log, buffer, control state and the pending response are as before. (R140) -/
def Obligations.TickAdvancesClock : Prop :=
  ∀ s : State, ∃ t, exec .rtcTick s = .next t ∧
    (s.secondsLT.toNat + s.config.tickLen ≤ 59 →
      t.secondsLT.toNat = s.secondsLT.toNat + s.config.tickLen ∧ t.minutesLT = s.minutesLT ∧
      t.daysSinceEpoch = s.daysSinceEpoch) ∧
    (59 < s.secondsLT.toNat + s.config.tickLen → s.minutesLT.toNat + 1 ≤ 1439 →
      t.secondsLT = 0#8 ∧ t.minutesLT.toNat = s.minutesLT.toNat + 1 ∧ t.daysSinceEpoch = s.daysSinceEpoch) ∧
    (59 < s.secondsLT.toNat + s.config.tickLen → 1439 < s.minutesLT.toNat + 1 →
      t.secondsLT = 0#8 ∧ t.minutesLT = 0#16 ∧ t.daysSinceEpoch.toNat = (s.daysSinceEpoch.toNat + 1) % 65536) ∧
    nvFrame s t ∧ obFrame s t ∧ controlFrame s t ∧ t.response = s.response

/-- With TICK_LEN 1 or 2, no command running and secondsLT 0: 60/TICK_LEN pulses leave secondsLT 0 and advance minutesLT
by one, or wrap it to 0 with the next day after 1439. If minutesLT is 0 too, 86400/TICK_LEN pulses leave seconds and
minutes 0 and advance daysSinceEpoch by one modulo 65536. Nothing else changes but the pulses being used up. (R141) -/
def Obligations.DayOfTicksAdvancesOneDay : Prop :=
  ∀ (s : State) (rest : List Event), s.config.tickLen = 1 ∨ s.config.tickLen = 2 →
    s.activity = .idle → s.secondsLT = 0#8 →
    (s.minutesLT.toNat ≤ 1439 →
      s.inputs = List.replicate (60 / s.config.tickLen) (.port .pulse) ++ rest →
      Host.Core.run Sys2Proof.core (60 / s.config.tickLen) s = .next
        { s with
          minutesLT := BitVec.ofNat 16 (if s.minutesLT.toNat = 1439 then 0 else s.minutesLT.toNat + 1)
          daysSinceEpoch := BitVec.ofNat 16
            (if s.minutesLT.toNat = 1439 then (s.daysSinceEpoch.toNat + 1) % 65536 else s.daysSinceEpoch.toNat)
          inputs := rest }) ∧
    (s.minutesLT = 0#16 →
      s.inputs = List.replicate (86400 / s.config.tickLen) (.port .pulse) ++ rest →
      Host.Core.run Sys2Proof.core (86400 / s.config.tickLen) s = .next
        { s with
          daysSinceEpoch := BitVec.ofNat 16 ((s.daysSinceEpoch.toNat + 1) % 65536)
          inputs := rest })

/-- For every hour up to 23 and minute up to 59, RTC.SETHM answers a next state with minutesLT = 60*hours + minutes,
secondsLT, daysSinceEpoch, cells, log, buffer, configuration and events as before, no response yet, and step B
outstanding. (R16, R143, R145) -/
def Obligations.SethmStoresMinutes : Prop :=
  ∀ (hours minutes : Byte) (s : State), hours.toNat ≤ 23 → minutes.toNat ≤ 59 →
    ∃ t, exec (.rtcSethm hours minutes) s = .next t ∧ t.minutesLT.toNat = 60 * hours.toNat + minutes.toNat ∧
      t.secondsLT = s.secondsLT ∧ t.daysSinceEpoch = s.daysSinceEpoch ∧
      t.activity = .setterStepB ∧ t.response = none ∧
      nvFrame s t ∧ obFrame s t ∧ t.config = s.config ∧ t.inputs = s.inputs

/-- For every such pair RTC.SETHM completes in one step with FLAG 0 and with counters, cells, log, buffer and control
state as before. (R143, R144) -/
def Obligations.SethmRejectsInvalidTime : Prop :=
  ∀ (hours minutes : Byte) (s : State), 23 < hours.toNat ∨ 59 < minutes.toNat →
    ∃ t, exec (.rtcSethm hours minutes) s = .next t ∧ answered t false 0#16 ∧
      clockFrame s t ∧ nvFrame s t ∧ obFrame s t ∧ controlFrame s t

/-- In a legal configuration, between the setter's steps and with no tick placed there, the step answers a next state in
which the HH:quarter cell holds the encoded minutesLT (above 1439, in no state a run reaches, a free value: log
entry 25), the day cells hold daysSinceEpoch low byte first, every other cell, the counters and the buffer are as
before, the port is idle and FLAG 1 is answered. (R143, R145, R147) -/
def Obligations.SetterStepBPersistsAndAnswers : Prop :=
  ∀ s : State, s.config.wf → s.activity = .setterStepB → (∀ rest, s.inputs ≠ .tickInCommand :: rest) →
    ∃ t, step s = .next t ∧ answered t true 0#16 ∧ t.activity = .idle ∧
      nvRead s.config.nvAddrHhq t = hhqEncode s.minutesLT ∧
      nvRead s.config.nvAddrDays t = s.daysSinceEpoch.extractLsb' 0 8 ∧
      nvRead (s.config.nvAddrDays + 1) t = s.daysSinceEpoch.extractLsb' 8 8 ∧
      (∀ a, a ≠ s.config.nvAddrHhq → a ≠ s.config.nvAddrDays → a ≠ s.config.nvAddrDays + 1 →
        nvRead a t = nvRead a s) ∧
      clockFrame s t ∧ obFrame s t ∧ t.config = s.config ∧ t.inputs = s.inputs

/-- With no command running and the events RTC.SETHM h m, RTC.GETHOURS, RTC.GETMINS presented in this order, h up to 23
and m up to 59: after two steps the set is accepted, after three the response is h, after four it is m, and
secondsLT and daysSinceEpoch are as they were. (R144, R156, R157) -/
def Obligations.SethmThenAccessorsGiveThatTime : Prop :=
  ∀ (hours minutes : Byte) (s : State) (rest : List Event), hours.toNat ≤ 23 → minutes.toNat ≤ 59 →
    s.activity = .idle →
    s.inputs = .port (encode (.rtcSethm hours minutes)) :: .port (encode .rtcGethours) ::
      .port (encode .rtcGetmins) :: rest →
    ∃ t u v : State, Host.Core.run Sys2Proof.core 2 s = .next t ∧ answered t true 0#16 ∧
      Host.Core.run Sys2Proof.core 3 s = .next u ∧ answered u false (hours.zeroExtend 16) ∧
      Host.Core.run Sys2Proof.core 4 s = .next v ∧ answered v false (minutes.zeroExtend 16) ∧
      v.secondsLT = s.secondsLT ∧ v.daysSinceEpoch = s.daysSinceEpoch

/-- In a legal configuration, with an accepted RTC.SETHM between its steps and one tick placed there: the next step is
the tick, and the step after it leaves in the HH:quarter cell the encoding of minutesLT as the tick left it (above
1439, in no state a run reaches, a free value: log entry 25), with FLAG 1 answered and the counters as the tick left
them. (R145, R295) -/
def Obligations.TickBetweenSetterStepsIsPersisted : Prop :=
  ∀ (s : State) (rest : List Event), s.config.wf → s.activity = .setterStepB →
    s.inputs = .tickInCommand :: rest → (∀ r, rest ≠ .tickInCommand :: r) →
    ∃ t u, exec .rtcTick { s with inputs := rest } = .next t ∧ step s = .next t ∧ step t = .next u ∧
      nvRead s.config.nvAddrHhq u = hhqEncode t.minutesLT ∧ answered u true 0#16 ∧ clockFrame t u

/-- In a legal configuration RTC.PERSIST answers a next state with FLAG 0 in which the HH:quarter cell holds the encoded
minutesLT (hour in bits 7:3, quarter code in bits 2:0), the day cells hold daysSinceEpoch low byte first, every
other cell, the counters, the buffer and the control state are as before, and the log is as before when the three
cells already held these values. (R52, R146, R147, R148) -/
def Obligations.PersistStoresTime : Prop :=
  ∀ s : State, s.config.wf →
    ∃ t, exec .rtcPersist s = .next t ∧ answered t false 0#16 ∧
      (s.minutesLT.toNat ≤ 1439 → (nvRead s.config.nvAddrHhq t).toNat =
        s.minutesLT.toNat / 60 * 8 + [7, 6, 4, 0].getD (s.minutesLT.toNat % 60 / 15) 0) ∧
      nvRead s.config.nvAddrDays t = s.daysSinceEpoch.extractLsb' 0 8 ∧
      nvRead (s.config.nvAddrDays + 1) t = s.daysSinceEpoch.extractLsb' 8 8 ∧
      (∀ a, a ≠ s.config.nvAddrHhq → a ≠ s.config.nvAddrDays → a ≠ s.config.nvAddrDays + 1 →
        nvRead a t = nvRead a s) ∧
      ((∀ a, nvRead a t = nvRead a s) → t.nvlog = s.nvlog) ∧
      clockFrame s t ∧ obFrame s t ∧ controlFrame s t

/-- In a legal configuration, after one completed RTC.PERSIST a second one leaves every cell and the log as they were.
(R56, R148) -/
def Obligations.PersistTwicePerformsNothing : Prop :=
  ∀ s t u : State, s.config.wf → exec .rtcPersist s = .next t → exec .rtcPersist t = .next u → nvFrame t u

/-- From every state RTC.RESTORE answers a next state. daysSinceEpoch becomes the stored counter (low byte first) unless
that is 0xFFFF, when it stays. If the HH:quarter byte is 8h + code(q) for an hour h up to 23 and one of the four
legal codes, minutesLT becomes 60h + 15q + RESTORE_BIAS and FLAG is 1; if it is no such value, minutesLT stays and
FLAG is 0. secondsLT, cells, log, buffer and control state are as before. (R149, R150) -/
def Obligations.RestoreReadsStoredTime : Prop :=
  ∀ s : State, ∃ t, exec .rtcRestore s = .next t ∧
    ((nvRead (s.config.nvAddrDays + 1) s ++ nvRead s.config.nvAddrDays s : Half) = 0xFFFF#16 →
      t.daysSinceEpoch = s.daysSinceEpoch) ∧
    ((nvRead (s.config.nvAddrDays + 1) s ++ nvRead s.config.nvAddrDays s : Half) ≠ 0xFFFF#16 →
      t.daysSinceEpoch = nvRead (s.config.nvAddrDays + 1) s ++ nvRead s.config.nvAddrDays s) ∧
    (∀ h q, h ≤ 23 → q ≤ 3 → (nvRead s.config.nvAddrHhq s).toNat = 8 * h + [7, 6, 4, 0].getD q 0 →
      t.minutesLT = BitVec.ofNat 16 (60 * h + 15 * q + s.config.restoreBias) ∧ answered t true 0#16) ∧
    ((∀ h q, h ≤ 23 → q ≤ 3 → (nvRead s.config.nvAddrHhq s).toNat ≠ 8 * h + [7, 6, 4, 0].getD q 0) →
      t.minutesLT = s.minutesLT ∧ answered t false 0#16) ∧
    t.secondsLT = s.secondsLT ∧ nvFrame s t ∧ obFrame s t ∧ controlFrame s t

/-- In a legal configuration and with minutesLT at most 1439: RTC.PERSIST then RTC.RESTORE complete, the restore
succeeds, minutesLT is (m div 15)*15 + RESTORE_BIAS and lies in the same quarter-hour as m, daysSinceEpoch is as
before the persist (also when it is 65535) and secondsLT is unchanged. (R158) -/
def Obligations.PersistThenRestoreSameQuarter : Prop :=
  ∀ s : State, s.config.wf → s.minutesLT.toNat ≤ 1439 →
    ∃ t u, exec .rtcPersist s = .next t ∧ exec .rtcRestore t = .next u ∧ answered u true 0#16 ∧
      u.minutesLT.toNat = s.minutesLT.toNat / 15 * 15 + s.config.restoreBias ∧
      u.minutesLT.toNat / 15 = s.minutesLT.toNat / 15 ∧
      u.daysSinceEpoch = s.daysSinceEpoch ∧ u.secondsLT = s.secondsLT

/-- From every state RTC.GETSEC, RTC.GETMSM, RTC.GETDAYS, RTC.GETHOURS and RTC.GETMINS complete with STATUS 0, FLAG 0
and VALUE secondsLT, minutesLT, daysSinceEpoch, minutesLT div 60 and minutesLT mod 60; nothing but the response
changes. (R84, R152, R153, R154, R156, R157) -/
def Obligations.AccessorsAnswerCounters : Prop :=
  ∀ s : State,
    (∃ r, exec .rtcGetsec s = .next { s with response := some r } ∧ responseStatus r = 0#2 ∧
      responseFlag r = false ∧ (responseValue r).toNat = s.secondsLT.toNat) ∧
    (∃ r, exec .rtcGetmsm s = .next { s with response := some r } ∧ responseStatus r = 0#2 ∧
      responseFlag r = false ∧ (responseValue r).toNat = s.minutesLT.toNat) ∧
    (∃ r, exec .rtcGetdays s = .next { s with response := some r } ∧ responseStatus r = 0#2 ∧
      responseFlag r = false ∧ (responseValue r).toNat = s.daysSinceEpoch.toNat) ∧
    (∃ r, exec .rtcGethours s = .next { s with response := some r } ∧ responseStatus r = 0#2 ∧
      responseFlag r = false ∧ (responseValue r).toNat = s.minutesLT.toNat / 60) ∧
    (∃ r, exec .rtcGetmins s = .next { s with response := some r } ∧ responseStatus r = 0#2 ∧
      responseFlag r = false ∧ (responseValue r).toNat = s.minutesLT.toNat % 60)

/-- In a legal configuration with split erase and write and the HH:quarter cell holding the encoding of an earlier
minute m, what a completed RTC.PERSIST adds to the log is its HH:quarter operations followed by operations that are
none on that cell, with no such follower when the day was already stored. The HH:quarter operations are: none in the
same quarter-hour; one W of the new byte in a later quarter of the same hour; one EW of it in the next hour; and one
EW of 0x07 when the cell held 0xB8 from 23:45 and the minute is in 00:00 to 00:14. (R146, R147, R159) -/
def Obligations.PersistPathByHour : Prop :=
  ∀ (s t : State) (m : Half), s.config.wf → s.config.splitEw = true → s.minutesLT.toNat ≤ 1439 → m.toNat ≤ 1439 →
    nvRead s.config.nvAddrHhq s = hhqEncode m → exec .rtcPersist s = .next t →
    ∃ hhq days, t.nvlog = s.nvlog ++ hhq ++ days ∧
      ((nvRead (s.config.nvAddrDays + 1) s ++ nvRead s.config.nvAddrDays s : Half) = s.daysSinceEpoch → days = []) ∧
      eraseCount s.config.nvAddrHhq days = 0 ∧ writeCount s.config.nvAddrHhq days = 0 ∧
      (s.minutesLT.toNat / 15 = m.toNat / 15 → hhq = []) ∧
      (s.minutesLT.toNat / 60 = m.toNat / 60 → m.toNat / 15 < s.minutesLT.toNat / 15 →
        hhq = [.write s.config.nvAddrHhq (hhqEncode s.minutesLT)]) ∧
      (s.minutesLT.toNat / 60 = m.toNat / 60 + 1 →
        hhq = [.eraseWrite s.config.nvAddrHhq (hhqEncode s.minutesLT)]) ∧
      (m.toNat / 15 = 95 → s.minutesLT.toNat / 15 = 0 →
        nvRead s.config.nvAddrHhq s = 0xB8#8 ∧ hhq = [.eraseWrite s.config.nvAddrHhq 0x07#8])

/-- In a legal configuration with split erase and write and the three clock cells at 0xFF: RTC.RESTORE completes with
FLAG 0 and with counters, cells, log and buffer as before, and every entry a completed RTC.PERSIST adds to the log
is a W. (R283) -/
def Obligations.FreshArrayNeedsNoErase : Prop :=
  ∀ s : State, s.config.wf → s.config.splitEw = true → nvRead s.config.nvAddrHhq s = 0xFF#8 →
    nvRead s.config.nvAddrDays s = 0xFF#8 → nvRead (s.config.nvAddrDays + 1) s = 0xFF#8 →
    (∃ t, exec .rtcRestore s = .next t ∧ answered t false 0#16 ∧ clockFrame s t ∧ nvFrame s t ∧ obFrame s t) ∧
    (∃ u ops, exec .rtcPersist s = .next u ∧ u.nvlog = s.nvlog ++ ops ∧ ∀ op ∈ ops, ∃ a v, op = .write a v)

/-- In a legal configuration with daysSinceEpoch 65535: a completed RTC.PERSIST leaves both day cells at 0xFF, and a
RTC.RESTORE completed after the reset event leaves daysSinceEpoch 0 (the reset value is the spec's own decision, log
entry 9). (R297, R147, R150) -/
def Obligations.LastDayIsNotRestored : Prop :=
  ∀ s t u : State, s.config.wf → s.daysSinceEpoch = 0xFFFF#16 → exec .rtcPersist s = .next t →
    exec .rtcRestore (applyReset t) = .next u →
    nvRead s.config.nvAddrDays t = 0xFF#8 ∧ nvRead (s.config.nvAddrDays + 1) t = 0xFF#8 ∧
    u.daysSinceEpoch = 0#16

/-- For every offset below 1024 and every byte, OB.WR answers a next state with FLAG 0 in which that byte of the buffer
holds the value; every other byte, the counters, cells, log and control state are as before. (R230) -/
def Obligations.ObWrWritesOneByte : Prop :=
  ∀ (off : Half) (byte : Byte) (s : State), off.toNat < 1024 →
    ∃ t, exec (.obWr off byte) s = .next t ∧ answered t false 0#16 ∧ obRead off.toNat t = byte ∧
      (∀ o, o ≠ off.toNat → obRead o t = obRead o s) ∧ clockFrame s t ∧ nvFrame s t ∧ controlFrame s t

/-- For every offset below 1024, OB.RD answers a next state whose response is OK, FLAG 0, VALUE the byte zero-extended;
counters, cells, log, buffer and control state are as before. (R231) -/
def Obligations.ObRdAnswersByte : Prop :=
  ∀ (off : Half) (s : State), off.toNat < 1024 →
    ∃ t, exec (.obRd off) s = .next t ∧ answered t false ((obRead off.toNat s).zeroExtend 16) ∧
      clockFrame s t ∧ nvFrame s t ∧ obFrame s t ∧ controlFrame s t

/-- With KEYLEN 16, IVLEN 12 and all four flags set, GCM.ENCRYPT answers a next state with FLAG 1 in which OUT[0..N-1]
is the counter-mode ciphertext from J0+1 of IN[0..N-1] under KEY and IV, TAG is gcm_tag over AAD[0..M-1] and that
ciphertext, and every other byte of the buffer, the counters, cells, log and control state are as before. (R200,
R206, R210) -/
def Obligations.EncryptWritesCiphertextAndTag : Prop :=
  ∀ (n m : Byte) (s : State), lengthsClaimed s →
    ∃ t, exec (.gcmEncrypt allPresent n m) s = .next t ∧ answered t true 0#16 ∧
      (∀ i, i < n.toNat → obRead (0x300 + i) t = (bufferCrypt (obReadBytes 0x200 n.toNat s) s).getD i 0#8) ∧
      (∀ i, i < 16 → obRead (0x030 + i) t =
        (bufferTag m (bufferCrypt (obReadBytes 0x200 n.toNat s) s) s).getD i 0#8) ∧
      (∀ o, ¬(0x300 ≤ o ∧ o < 0x300 + n.toNat) → ¬(0x030 ≤ o ∧ o < 0x040) → obRead o t = obRead o s) ∧
      clockFrame s t ∧ nvFrame s t ∧ controlFrame s t

/-- With OB[0x000] not 16, or OB[0x001] not 12, or some flag 0, GCM.ENCRYPT and GCM.DECRYPT each answer a next state
with STATUS OK, FLAG 0, and every buffer byte, the counters, cells, log and control state as before. (R207, R210,
R215, R218) -/
def Obligations.InvalidGcmOperandsTouchNothing : Prop :=
  ∀ (p : PresentFlags) (n m : Byte) (i : Instr) (s : State), i = .gcmEncrypt p n m ∨ i = .gcmDecrypt p n m →
    obRead 0x000 s ≠ 16#8 ∨ obRead 0x001 s ≠ 12#8 ∨ p ≠ allPresent →
    ∃ t, exec i s = .next t ∧ answered t false 0#16 ∧ clockFrame s t ∧ nvFrame s t ∧ obFrame s t ∧ controlFrame s t

/-- With KEYLEN 16, IVLEN 12, all four flags set and TAG equal to gcm_tag over AAD[0..M-1] and IN[0..N-1], GCM.DECRYPT
answers a next state with FLAG 1 in which OUT[0..N-1] is counter mode from J0+1 of IN[0..N-1]; every other byte of
the buffer (TAG among them), the counters, cells, log and control state are as before. (R200, R206, R215) -/
def Obligations.DecryptOnMatchWritesPlaintext : Prop :=
  ∀ (n m : Byte) (s : State), authentic n m s →
    ∃ t, exec (.gcmDecrypt allPresent n m) s = .next t ∧ answered t true 0#16 ∧
      (∀ i, i < n.toNat → obRead (0x300 + i) t = (bufferCrypt (obReadBytes 0x200 n.toNat s) s).getD i 0#8) ∧
      (∀ o, ¬(0x300 ≤ o ∧ o < 0x300 + n.toNat) → obRead o t = obRead o s) ∧
      clockFrame s t ∧ nvFrame s t ∧ controlFrame s t

/-- With a tag that differs from gcm_tag over AAD[0..M-1] and IN[0..N-1], GCM.DECRYPT answers a next state with FLAG 0
in which every buffer byte, OUT among them, the counters, cells, log and control state are as before. (R208, R215) -/
def Obligations.DecryptOnMismatchReleasesNothing : Prop :=
  ∀ (p : PresentFlags) (n m : Byte) (s : State),
    obReadBytes 0x030 16 s ≠ bufferTag m (obReadBytes 0x200 n.toNat s) s →
    ∃ t, exec (.gcmDecrypt p n m) s = .next t ∧ answered t false 0#16 ∧
      clockFrame s t ∧ nvFrame s t ∧ obFrame s t ∧ controlFrame s t

/-- For every key, IV, N, M, associated data and plaintext in the buffer with the lengths claimed: after a GCM.ENCRYPT
completed from s to t, in any state u whose buffer is that of t with OUT[0..N-1] copied to IN[0..N-1], GCM.DECRYPT
with the same N and M answers FLAG 1 and leaves in OUT[0..N-1] what IN[0..N-1] held in s. (R216) -/
def Obligations.GcmRoundTrip : Prop :=
  ∀ (n m : Byte) (s t u : State), lengthsClaimed s → exec (.gcmEncrypt allPresent n m) s = .next t →
    (∀ o, obRead o u = if 0x200 ≤ o ∧ o < 0x200 + n.toNat then obRead (o + 0x100) t else obRead o t) →
    ∃ v, exec (.gcmDecrypt allPresent n m) u = .next v ∧ answered v true 0#16 ∧
      ∀ i, i < n.toNat → obRead (0x300 + i) v = obRead (0x200 + i) s

/-- If the buffer of s holds a frame whose tag verifies and that of u is the same with one bit of TAG flipped,
GCM.DECRYPT in u answers FLAG 0 and every buffer byte is as before. (R217) -/
def Obligations.FlippedTagBitIsRejected : Prop :=
  ∀ (n m : Byte) (k b : Nat) (s u : State), k < 16 → b < 8 → authentic n m s → bitFlipped (0x030 + k) b s u →
    ∃ v, exec (.gcmDecrypt allPresent n m) u = .next v ∧ answered v false 0#16 ∧ obFrame u v

/-- If the buffer of s holds a frame whose tag verifies, the hash subkey of its key is not zero, and the buffer of u is
the same with one bit of IN[0..N-1] or of AAD[0..M-1] flipped, GCM.DECRYPT in u answers FLAG 0 and every buffer byte
is as before. (R202, R205, R217) -/
def Obligations.FlippedDataBitIsRejected : Prop :=
  ∀ (n m : Byte) (k b : Nat) (s u : State), b < 8 → authentic n m s →
    aesEncrypt (obReadBytes 0x010 16 s) (List.replicate 16 0#8) ≠ List.replicate 16 0#8 →
    (k < n.toNat ∧ bitFlipped (0x200 + k) b s u) ∨ (k < m.toNat ∧ bitFlipped (0x100 + k) b s u) →
    ∃ v, exec (.gcmDecrypt allPresent n m) u = .next v ∧ answered v false 0#16 ∧ obFrame u v

/-- Two states whose buffers read alike get the same response and buffers that read alike from the same GCM command,
whatever their counters, cells, log and earlier commands. (R29, R50, R210, R215) -/
def Obligations.GcmDependsOnBufferOnly : Prop :=
  ∀ (p : PresentFlags) (n m : Byte) (i : Instr) (s s' t t' : State), i = .gcmEncrypt p n m ∨ i = .gcmDecrypt p n m →
    (∀ o, obRead o s = obRead o s') → exec i s = .next t → exec i s' = .next t' →
    t.response = t'.response ∧ ∀ o, obRead o t = obRead o t'

/-- For every 16-byte key and all 16-byte blocks, two blocks with the same ciphertext are the same block; the ciphertext
is a 16-byte block. (R183, R189) -/
def Obligations.AesIsInjectiveOnBlocks : Prop :=
  ∀ key x y : Bytes, key.length = 16 → x.length = 16 → y.length = 16 →
    (aesEncrypt key x).length = 16 ∧ (aesEncrypt key x = aesEncrypt key y → x = y)

/-- For all 16-byte blocks X and Y: gf128_mul(X, Y) = gf128_mul(Y, X), gf128_mul(X, 0) = 0, and the block 0x80 followed
by 15 zero bytes times X is X. (R202) -/
def Obligations.GfMulIsCommutativeWithIdentity : Prop :=
  ∀ x y : Bytes, x.length = 16 → y.length = 16 →
    gf128Mul x y = gf128Mul y x ∧ gf128Mul x (List.replicate 16 0#8) = List.replicate 16 0#8 ∧
    gf128Mul (0x80#8 :: List.replicate 15 0#8) x = x

/-- For every 16-byte key, every initial counter block and every byte string X: gctr(K, ICB, gctr(K, ICB, X)) = X, and
the result is as long as X. (R204) -/
def Obligations.CounterModeIsItsOwnInverse : Prop :=
  ∀ key icb x : Bytes, key.length = 16 →
    (gctr key icb x).length = x.length ∧ gctr key icb (gctr key icb x) = x

/-- If in s the configuration is legal, both memories are canonical and inside their spaces, secondsLT is at most 59
(and even when TICK_LEN is 2), minutesLT is at most 1439, a pending response is a legal word and none is pending
between the setter's steps, then the same holds in the state any step leaves, also after a fault. (R7, R24, R50,
R84) -/
def Obligations.StepKeepsInvariant : Prop :=
  ∀ s t : State, s.Inv → stateAfter (step s) = some t → t.Inv

/-- The reset state (counters 0, erased cells and the default configuration: log entries 9, 7 and 3) meets the invariant
every step keeps, and it is the host's reset state. (R7, R24, R32) -/
def Obligations.ResetStateMeetsInvariant : Prop :=
  State.reset.Inv ∧ Sys2Proof.core.reset = State.reset

/-- For every BS, OB and GCM command that completes from s: taking a tick first and then the command gives the same
state as taking the command first and then the tick. (R60) -/
def Obligations.TickCommutesWithMemoryCommands : Prop :=
  ∀ (i : Instr) (s t : State), memoryOnly i = true → exec i s = .next t →
    ∃ s' t', exec .rtcTick s = .next s' ∧ exec i s' = .next t' ∧ exec .rtcTick t = .next t'

/-- When an instruction completes: secondsLT differs only after RTC.TICK, minutesLT only after RTC.TICK, RTC.SETHM or
RTC.RESTORE, daysSinceEpoch only after RTC.TICK or RTC.RESTORE. (R23) -/
def Obligations.CountersChangeOnlyByTheirWriters : Prop :=
  ∀ (i : Instr) (s t : State), exec i s = .next t →
    (t.secondsLT ≠ s.secondsLT → i = .rtcTick) ∧
    (t.minutesLT ≠ s.minutesLT → i = .rtcTick ∨ i = .rtcRestore ∨ ∃ h m, i = .rtcSethm h m) ∧
    (t.daysSinceEpoch ≠ s.daysSinceEpoch → i = .rtcTick ∨ i = .rtcRestore)

/-- Every other instruction, the tick among them, leaves every byte of the operand buffer as it was when it completes.
(R28, R50, R60) -/
def Obligations.OnlyBufferCommandsChangeBuffer : Prop :=
  ∀ (i : Instr) (s t : State), exec i s = .next t → mayChangeBuffer i = false → obFrame s t

/-- Whatever a step does, a fault or the reset event included, the configuration record is as before. (R30) -/
def Obligations.ConfigurationNeverChanges : Prop :=
  ∀ s t : State, stateAfter (step s) = some t → t.config = s.config

/-- For every address, value, mask and state, with either value of SPLIT_EW: (1) smartUpdate leaves the value, result
old differs from it; (2) smartErase leaves 0xFF, result old is not 0xFF; (3) smartClearBits leaves old AND mask,
result that differs from old; (4) smartUpdate to 0xFF is smartErase: same cells, operation and result; (5)
smartClearBits sets no bit that was 0; (6) each leaves every other cell; (7) each adds at most one operation to the
log, none exactly when its result is false; (8) with SPLIT_EW true smartUpdate adds an E or EW only if the value has
a 1 where old has a 0, and smartClearBits adds none. (R122) -/
def Obligations.MutatorLaws : Prop :=
  ∀ (a : Nat) (v mask : Byte) (s : State),
    (nvRead a (smartUpdate a v s).1 = v ∧ (smartUpdate a v s).2 = decide (nvRead a s ≠ v)) ∧
    (nvRead a (smartErase a s).1 = 0xFF#8 ∧ (smartErase a s).2 = decide (nvRead a s ≠ 0xFF#8)) ∧
    (nvRead a (smartClearBits a mask s).1 = nvRead a s &&& mask ∧
      (smartClearBits a mask s).2 = decide (nvRead a s &&& mask ≠ nvRead a s)) ∧
    smartUpdate a 0xFF#8 s = smartErase a s ∧
    nvRead a (smartClearBits a mask s).1 &&& ~~~(nvRead a s) = 0#8 ∧
    (∀ r, r = smartUpdate a v s ∨ r = smartErase a s ∨ r = smartClearBits a mask s →
      (∀ b, b ≠ a → nvRead b r.1 = nvRead b s) ∧
      ∃ ops, r.1.nvlog = s.nvlog ++ ops ∧ ops.length ≤ 1 ∧ (ops = [] ↔ r.2 = false)) ∧
    (s.config.splitEw = true →
      ((∃ b, eraseCount b (smartUpdate a v s).1.nvlog ≠ eraseCount b s.nvlog) → v &&& ~~~(nvRead a s) ≠ 0#8) ∧
      ∀ b, eraseCount b (smartClearBits a mask s).1.nvlog = eraseCount b s.nvlog)
end

