-- ==== Sys2Proof/Laws/State.lean ====
section
/-! SUPPORT. One lemma for each field of State under each named update, so that no proof unfolds a record update. -/

namespace Sys2Proof.Machine

/-! ### respond -/

@[simp] theorem respond_config (status : Status) (flag : Bool) (value : Half) (s : State) :
    (respond status flag value s).config = s.config := rfl
@[simp] theorem respond_secondsLT (status : Status) (flag : Bool) (value : Half) (s : State) :
    (respond status flag value s).secondsLT = s.secondsLT := rfl
@[simp] theorem respond_minutesLT (status : Status) (flag : Bool) (value : Half) (s : State) :
    (respond status flag value s).minutesLT = s.minutesLT := rfl
@[simp] theorem respond_daysSinceEpoch (status : Status) (flag : Bool) (value : Half) (s : State) :
    (respond status flag value s).daysSinceEpoch = s.daysSinceEpoch := rfl
@[simp] theorem respond_nv (status : Status) (flag : Bool) (value : Half) (s : State) :
    (respond status flag value s).nv = s.nv := rfl
@[simp] theorem respond_nvlog (status : Status) (flag : Bool) (value : Half) (s : State) :
    (respond status flag value s).nvlog = s.nvlog := rfl
@[simp] theorem respond_ob (status : Status) (flag : Bool) (value : Half) (s : State) :
    (respond status flag value s).ob = s.ob := rfl
@[simp] theorem respond_activity (status : Status) (flag : Bool) (value : Half) (s : State) :
    (respond status flag value s).activity = s.activity := rfl
@[simp] theorem respond_response (status : Status) (flag : Bool) (value : Half) (s : State) :
    (respond status flag value s).response = some (responseWord status flag value) := rfl
@[simp] theorem respond_inputs (status : Status) (flag : Bool) (value : Half) (s : State) :
    (respond status flag value s).inputs = s.inputs := rfl

/-! ### nvPerform -/

@[simp] theorem nvPerform_config (op : NvOp) (a : Nat) (v : Byte) (s : State) :
    (nvPerform op a v s).config = s.config := rfl
@[simp] theorem nvPerform_secondsLT (op : NvOp) (a : Nat) (v : Byte) (s : State) :
    (nvPerform op a v s).secondsLT = s.secondsLT := rfl
@[simp] theorem nvPerform_minutesLT (op : NvOp) (a : Nat) (v : Byte) (s : State) :
    (nvPerform op a v s).minutesLT = s.minutesLT := rfl
@[simp] theorem nvPerform_daysSinceEpoch (op : NvOp) (a : Nat) (v : Byte) (s : State) :
    (nvPerform op a v s).daysSinceEpoch = s.daysSinceEpoch := rfl
@[simp] theorem nvPerform_nv (op : NvOp) (a : Nat) (v : Byte) (s : State) :
    (nvPerform op a v s).nv = Memory.write nvErased a v s.nv := rfl
@[simp] theorem nvPerform_nvlog (op : NvOp) (a : Nat) (v : Byte) (s : State) :
    (nvPerform op a v s).nvlog = s.nvlog ++ [op] := rfl
@[simp] theorem nvPerform_ob (op : NvOp) (a : Nat) (v : Byte) (s : State) :
    (nvPerform op a v s).ob = s.ob := rfl
@[simp] theorem nvPerform_activity (op : NvOp) (a : Nat) (v : Byte) (s : State) :
    (nvPerform op a v s).activity = s.activity := rfl
@[simp] theorem nvPerform_response (op : NvOp) (a : Nat) (v : Byte) (s : State) :
    (nvPerform op a v s).response = s.response := rfl
@[simp] theorem nvPerform_inputs (op : NvOp) (a : Nat) (v : Byte) (s : State) :
    (nvPerform op a v s).inputs = s.inputs := rfl

/-! ### obWrite -/

@[simp] theorem obWrite_config (o : Nat) (v : Byte) (s : State) :
    (obWrite o v s).config = s.config := rfl
@[simp] theorem obWrite_secondsLT (o : Nat) (v : Byte) (s : State) :
    (obWrite o v s).secondsLT = s.secondsLT := rfl
@[simp] theorem obWrite_minutesLT (o : Nat) (v : Byte) (s : State) :
    (obWrite o v s).minutesLT = s.minutesLT := rfl
@[simp] theorem obWrite_daysSinceEpoch (o : Nat) (v : Byte) (s : State) :
    (obWrite o v s).daysSinceEpoch = s.daysSinceEpoch := rfl
@[simp] theorem obWrite_nv (o : Nat) (v : Byte) (s : State) :
    (obWrite o v s).nv = s.nv := rfl
@[simp] theorem obWrite_nvlog (o : Nat) (v : Byte) (s : State) :
    (obWrite o v s).nvlog = s.nvlog := rfl
@[simp] theorem obWrite_ob (o : Nat) (v : Byte) (s : State) :
    (obWrite o v s).ob = Memory.write obCleared o v s.ob := rfl
@[simp] theorem obWrite_activity (o : Nat) (v : Byte) (s : State) :
    (obWrite o v s).activity = s.activity := rfl
@[simp] theorem obWrite_response (o : Nat) (v : Byte) (s : State) :
    (obWrite o v s).response = s.response := rfl
@[simp] theorem obWrite_inputs (o : Nat) (v : Byte) (s : State) :
    (obWrite o v s).inputs = s.inputs := rfl

/-! ### withInputs -/

@[simp] theorem withInputs_config (rest : List Event) (s : State) :
    (withInputs rest s).config = s.config := rfl
@[simp] theorem withInputs_secondsLT (rest : List Event) (s : State) :
    (withInputs rest s).secondsLT = s.secondsLT := rfl
@[simp] theorem withInputs_minutesLT (rest : List Event) (s : State) :
    (withInputs rest s).minutesLT = s.minutesLT := rfl
@[simp] theorem withInputs_daysSinceEpoch (rest : List Event) (s : State) :
    (withInputs rest s).daysSinceEpoch = s.daysSinceEpoch := rfl
@[simp] theorem withInputs_nv (rest : List Event) (s : State) :
    (withInputs rest s).nv = s.nv := rfl
@[simp] theorem withInputs_nvlog (rest : List Event) (s : State) :
    (withInputs rest s).nvlog = s.nvlog := rfl
@[simp] theorem withInputs_ob (rest : List Event) (s : State) :
    (withInputs rest s).ob = s.ob := rfl
@[simp] theorem withInputs_activity (rest : List Event) (s : State) :
    (withInputs rest s).activity = s.activity := rfl
@[simp] theorem withInputs_response (rest : List Event) (s : State) :
    (withInputs rest s).response = s.response := rfl
@[simp] theorem withInputs_inputs (rest : List Event) (s : State) :
    (withInputs rest s).inputs = rest := rfl

/-! ### presentNext -/

@[simp] theorem presentNext_config (p : PortWord) (s : State) :
    (presentNext p s).config = s.config := rfl
@[simp] theorem presentNext_secondsLT (p : PortWord) (s : State) :
    (presentNext p s).secondsLT = s.secondsLT := rfl
@[simp] theorem presentNext_minutesLT (p : PortWord) (s : State) :
    (presentNext p s).minutesLT = s.minutesLT := rfl
@[simp] theorem presentNext_daysSinceEpoch (p : PortWord) (s : State) :
    (presentNext p s).daysSinceEpoch = s.daysSinceEpoch := rfl
@[simp] theorem presentNext_nv (p : PortWord) (s : State) :
    (presentNext p s).nv = s.nv := rfl
@[simp] theorem presentNext_nvlog (p : PortWord) (s : State) :
    (presentNext p s).nvlog = s.nvlog := rfl
@[simp] theorem presentNext_ob (p : PortWord) (s : State) :
    (presentNext p s).ob = s.ob := rfl
@[simp] theorem presentNext_activity (p : PortWord) (s : State) :
    (presentNext p s).activity = .idle := rfl
@[simp] theorem presentNext_response (p : PortWord) (s : State) :
    (presentNext p s).response = s.response := rfl
@[simp] theorem presentNext_inputs (p : PortWord) (s : State) :
    (presentNext p s).inputs = .port p :: s.inputs := rfl

/-! ### applyReset -/

@[simp] theorem applyReset_config (s : State) :
    (applyReset s).config = s.config := rfl
@[simp] theorem applyReset_secondsLT (s : State) :
    (applyReset s).secondsLT = 0#8 := rfl
@[simp] theorem applyReset_minutesLT (s : State) :
    (applyReset s).minutesLT = 0#16 := rfl
@[simp] theorem applyReset_daysSinceEpoch (s : State) :
    (applyReset s).daysSinceEpoch = 0#16 := rfl
@[simp] theorem applyReset_nv (s : State) :
    (applyReset s).nv = s.nv := rfl
@[simp] theorem applyReset_nvlog (s : State) :
    (applyReset s).nvlog = s.nvlog := rfl
@[simp] theorem applyReset_ob (s : State) :
    (applyReset s).ob = [] := rfl
@[simp] theorem applyReset_activity (s : State) :
    (applyReset s).activity = .idle := rfl
@[simp] theorem applyReset_response (s : State) :
    (applyReset s).response = none := rfl
@[simp] theorem applyReset_inputs (s : State) :
    (applyReset s).inputs = s.inputs := rfl

/-! ### setterStepA -/

@[simp] theorem setterStepA_config (hours minutes : Byte) (s : State) :
    (setterStepA hours minutes s).config = s.config := rfl
@[simp] theorem setterStepA_secondsLT (hours minutes : Byte) (s : State) :
    (setterStepA hours minutes s).secondsLT = s.secondsLT := rfl
@[simp] theorem setterStepA_minutesLT (hours minutes : Byte) (s : State) :
    (setterStepA hours minutes s).minutesLT = BitVec.ofNat 16 (60 * hours.toNat + minutes.toNat) := rfl
@[simp] theorem setterStepA_daysSinceEpoch (hours minutes : Byte) (s : State) :
    (setterStepA hours minutes s).daysSinceEpoch = s.daysSinceEpoch := rfl
@[simp] theorem setterStepA_nv (hours minutes : Byte) (s : State) :
    (setterStepA hours minutes s).nv = s.nv := rfl
@[simp] theorem setterStepA_nvlog (hours minutes : Byte) (s : State) :
    (setterStepA hours minutes s).nvlog = s.nvlog := rfl
@[simp] theorem setterStepA_ob (hours minutes : Byte) (s : State) :
    (setterStepA hours minutes s).ob = s.ob := rfl
@[simp] theorem setterStepA_activity (hours minutes : Byte) (s : State) :
    (setterStepA hours minutes s).activity = .setterStepB := rfl
@[simp] theorem setterStepA_response (hours minutes : Byte) (s : State) :
    (setterStepA hours minutes s).response = none := rfl
@[simp] theorem setterStepA_inputs (hours minutes : Byte) (s : State) :
    (setterStepA hours minutes s).inputs = s.inputs := rfl

/-! ### carryDay -/

@[simp] theorem carryDay_config (s : State) :
    (carryDay s).config = s.config := rfl
@[simp] theorem carryDay_secondsLT (s : State) :
    (carryDay s).secondsLT = s.secondsLT := rfl
@[simp] theorem carryDay_minutesLT (s : State) :
    (carryDay s).minutesLT = s.minutesLT := rfl
@[simp] theorem carryDay_daysSinceEpoch (s : State) :
    (carryDay s).daysSinceEpoch = BitVec.ofNat 16 ((s.daysSinceEpoch.toNat + 1) % 65536) := rfl
@[simp] theorem carryDay_nv (s : State) :
    (carryDay s).nv = s.nv := rfl
@[simp] theorem carryDay_nvlog (s : State) :
    (carryDay s).nvlog = s.nvlog := rfl
@[simp] theorem carryDay_ob (s : State) :
    (carryDay s).ob = s.ob := rfl
@[simp] theorem carryDay_activity (s : State) :
    (carryDay s).activity = s.activity := rfl
@[simp] theorem carryDay_response (s : State) :
    (carryDay s).response = s.response := rfl
@[simp] theorem carryDay_inputs (s : State) :
    (carryDay s).inputs = s.inputs := rfl

/-! ### The reset state -/

@[simp] theorem reset_config : State.reset.config = Config.default := rfl
@[simp] theorem reset_nv : State.reset.nv = [] := rfl
@[simp] theorem reset_ob : State.reset.ob = [] := rfl
@[simp] theorem reset_activity : State.reset.activity = .idle := rfl
@[simp] theorem reset_inputs : State.reset.inputs = [] := rfl

end Sys2Proof.Machine
end

