-- ==== Sys2Proof/Laws/Memory.lean ====
section
/-! SUPPORT. The laws of a byte-wide space: reading after writing (in any space, canonical or not), the canonical form
kept by every operation, and equality of canonical spaces that read alike. -/

namespace Sys2Proof.Machine

/-! ### Reading after writing -/

theorem Memory.read_remove (d : Byte) (a b : Nat) (m : Memory) :
    Memory.read d b (Memory.remove a m) = if a = b then d else Memory.read d b m := by
  induction m with
  | nil => simp [Memory.remove, Memory.read]
  | cons c m ih =>
    obtain ⟨k, x⟩ := c
    simp only [Memory.remove] at ih ⊢
    by_cases hk : k = a
    · subst hk
      simp only [ne_eq, not_true_eq_false, decide_false, Bool.false_eq_true, not_false_eq_true,
        List.filter_cons_of_neg, ih, Memory.read]
      by_cases hb : k = b <;> simp [hb]
    · simp only [ne_eq, hk, not_false_eq_true, decide_true, List.filter_cons_of_pos, Memory.read, ih]
      by_cases hb : k = b
      · simp [hb, show ¬a = b from fun h => hk (hb.trans h.symm)]
      · simp [hb]

theorem Memory.read_insert (d : Byte) (a b : Nat) (v : Byte) (m : Memory) (h : ∀ c ∈ m, c.1 ≠ a) :
    Memory.read d b (Memory.insert a v m) = if a = b then v else Memory.read d b m := by
  induction m with
  | nil => simp [Memory.insert, Memory.read]
  | cons c m ih =>
    obtain ⟨k, x⟩ := c
    have hk : k ≠ a := h (k, x) (by simp)
    have ih := ih fun c hc => h c (by simp [hc])
    by_cases hlt : a < k
    · simp [Memory.insert, hlt, Memory.read]
    · simp only [Memory.insert, hlt, if_false, Memory.read, ih]
      by_cases hb : k = b
      · simp [hb, show ¬a = b from fun e => hk (hb.trans e.symm)]
      · simp [hb]

theorem Memory.mem_remove {a : Nat} {m : Memory} {c : Host.Cell} :
    c ∈ Memory.remove a m ↔ c ∈ m ∧ c.1 ≠ a := by simp [Memory.remove]

/-- A read after a write gives the value at its address and leaves every other address alone. -/
theorem Memory.read_write (d : Byte) (a b : Nat) (v : Byte) (m : Memory) :
    Memory.read d b (Memory.write d a v m) = if a = b then v else Memory.read d b m := by
  unfold Memory.write
  split
  · next h => rw [Memory.read_remove, h]
  · rw [Memory.read_insert _ _ _ _ _ fun c hc => (Memory.mem_remove.1 hc).2, Memory.read_remove]
    split <;> rfl

@[simp] theorem Memory.read_write_self (d : Byte) (a : Nat) (v : Byte) (m : Memory) :
    Memory.read d a (Memory.write d a v m) = v := by simp [Memory.read_write]

theorem Memory.read_write_other (d : Byte) {a b : Nat} (v : Byte) (m : Memory) (h : a ≠ b) :
    Memory.read d b (Memory.write d a v m) = Memory.read d b m := by simp [Memory.read_write, h]

/-! ### The canonical form -/

theorem Memory.mem_insert {a : Nat} {v : Byte} {m : Memory} {c : Host.Cell} :
    c ∈ Memory.insert a v m ↔ c = (a, v) ∨ c ∈ m := by
  induction m with
  | nil => simp [Memory.insert]
  | cons e m ih =>
    obtain ⟨k, x⟩ := e
    unfold Memory.insert
    split
    · simp
    · simp only [List.mem_cons, ih]
      tauto

theorem Memory.pairwise_insert (a : Nat) (v : Byte) (m : Memory) (h : m.Pairwise (fun x y => x.1 < y.1))
    (ha : ∀ c ∈ m, c.1 ≠ a) : (Memory.insert a v m).Pairwise (fun x y => x.1 < y.1) := by
  induction m with
  | nil => simp [Memory.insert]
  | cons e m ih =>
    obtain ⟨k, x⟩ := e
    have hk : k ≠ a := ha (k, x) (by simp)
    obtain ⟨hhead, htail⟩ := List.pairwise_cons.1 h
    unfold Memory.insert
    split
    · next hlt =>
      refine List.pairwise_cons.2 ⟨fun c hc => ?_, h⟩
      rcases List.mem_cons.1 hc with rfl | hc
      · exact hlt
      · exact hlt.trans (hhead c hc)
    · next hlt =>
      refine List.pairwise_cons.2 ⟨fun c hc => ?_, ih htail fun c hc => ha c (by simp [hc])⟩
      rcases Memory.mem_insert.1 hc with rfl | hc
      · exact lt_of_le_of_ne (Nat.le_of_not_lt hlt) hk
      · exact hhead c hc

theorem Memory.wf_nil (d : Byte) : Memory.wf d [] := by simp [Memory.wf]

/-- A write keeps the canonical form. -/
theorem Memory.wf_write {d : Byte} {a : Nat} {v : Byte} {m : Memory} (h : Memory.wf d m) :
    Memory.wf d (Memory.write d a v m) := by
  have hsub : (Memory.remove a m).Pairwise (fun x y => x.1 < y.1) := h.1.filter _
  unfold Memory.write
  split
  · exact ⟨hsub, fun c hc => h.2 c (Memory.mem_remove.1 hc).1⟩
  · next hv =>
    refine ⟨Memory.pairwise_insert a v _ hsub fun c hc => (Memory.mem_remove.1 hc).2, fun c hc => ?_⟩
    rcases Memory.mem_insert.1 hc with rfl | hc
    · exact hv
    · exact h.2 c (Memory.mem_remove.1 hc).1

theorem Memory.within_nil (n : Nat) : Memory.within n [] := by simp [Memory.within]

/-- A write at an address of the space lists only addresses of the space. -/
theorem Memory.within_write {n : Nat} {d : Byte} {a : Nat} {v : Byte} {m : Memory} (h : Memory.within n m)
    (ha : a < n) : Memory.within n (Memory.write d a v m) := by
  intro c hc
  unfold Memory.write at hc
  split at hc
  · exact h c (Memory.mem_remove.1 hc).1
  · rcases Memory.mem_insert.1 hc with rfl | hc
    · exact ha
    · exact h c (Memory.mem_remove.1 hc).1

/-! ### Equal memories are equal data -/

theorem Memory.read_eq_default {d : Byte} {a : Nat} {m : Memory} (h : ∀ c ∈ m, c.1 ≠ a) :
    Memory.read d a m = d := by
  induction m with
  | nil => rfl
  | cons c m ih =>
    obtain ⟨k, x⟩ := c
    simp [Memory.read, h (k, x) (by simp), ih fun c hc => h c (by simp [hc])]

/-- Two canonical spaces that read alike are equal. -/
theorem Memory.eq_of_read_eq {d : Byte} {m m' : Memory} (h : Memory.wf d m) (h' : Memory.wf d m')
    (hr : ∀ a, Memory.read d a m = Memory.read d a m') : m = m' := by
  induction m generalizing m' with
  | nil =>
    cases m' with
    | nil => rfl
    | cons c m' =>
      have := hr c.1
      simp only [Memory.read, if_true] at this
      exact absurd this.symm (h'.2 c (by simp))
  | cons c m ih =>
    obtain ⟨hhead, htail⟩ := List.pairwise_cons.1 h.1
    have hc : Memory.read d c.1 (c :: m) = c.2 := by simp [Memory.read]
    cases m' with
    | nil =>
      have := hr c.1
      rw [hc] at this
      exact absurd this (h.2 c (by simp))
    | cons c' m' =>
      obtain ⟨hhead', htail'⟩ := List.pairwise_cons.1 h'.1
      have hc' : Memory.read d c'.1 (c' :: m') = c'.2 := by simp [Memory.read]
      have hkey : c.1 = c'.1 := by
        by_contra hne
        rcases Nat.lt_or_gt_of_ne hne with hlt | hlt
        · have hnone : Memory.read d c.1 (c' :: m') = d := Memory.read_eq_default fun e he => by
            rcases List.mem_cons.1 he with rfl | he
            · exact hlt.ne'
            · exact (hlt.trans (hhead' e he)).ne'
          exact h.2 c (by simp) (by rw [← hc, hr, hnone])
        · have hnone : Memory.read d c'.1 (c :: m) = d := Memory.read_eq_default fun e he => by
            rcases List.mem_cons.1 he with rfl | he
            · exact hlt.ne'
            · exact (hlt.trans (hhead e he)).ne'
          exact h'.2 c' (by simp) (by rw [← hc', ← hr, hnone])
      have hval : c = c' := by
        refine Prod.ext hkey ?_
        rw [← hc, hr c.1, hkey, hc']
      subst hval
      refine congrArg (c :: ·) (ih ⟨htail, fun e he => h.2 e (by simp [he])⟩
        ⟨htail', fun e he => h'.2 e (by simp [he])⟩ fun a => ?_)
      by_cases ha : c.1 = a
      · subst ha
        rw [Memory.read_eq_default fun e he => (hhead e he).ne', Memory.read_eq_default fun e he => (hhead' e he).ne']
      · have := hr a
        simpa [Memory.read, ha] using this

end Sys2Proof.Machine
end

