-- ==== Sys2Proof/Laws/Ops.lean ====
section
/-! SUPPORT. What the shared operations do, each said once: reads under every named update, the operand buffer's byte
strings, response words, and completion. -/

namespace Sys2Proof.Machine

/-! ### Reads under updates of the other fields -/

@[simp] theorem nvRead_respond (a : Nat) (st : Status) (fl : Bool) (v : Half) (s : State) :
    nvRead a (respond st fl v s) = nvRead a s := rfl
@[simp] theorem nvRead_obWrite (a o : Nat) (v : Byte) (s : State) : nvRead a (obWrite o v s) = nvRead a s := rfl
@[simp] theorem nvRead_withInputs (a : Nat) (r : List Event) (s : State) : nvRead a (withInputs r s) = nvRead a s := rfl
@[simp] theorem nvRead_presentNext (a : Nat) (p : PortWord) (s : State) :
    nvRead a (presentNext p s) = nvRead a s := rfl
@[simp] theorem nvRead_applyReset (a : Nat) (s : State) : nvRead a (applyReset s) = nvRead a s := rfl
@[simp] theorem nvRead_setterStepA (a : Nat) (h m : Byte) (s : State) : nvRead a (setterStepA h m s) = nvRead a s := rfl
@[simp] theorem obRead_respond (o : Nat) (st : Status) (fl : Bool) (v : Half) (s : State) :
    obRead o (respond st fl v s) = obRead o s := rfl
@[simp] theorem obRead_nvPerform (o : Nat) (op : NvOp) (a : Nat) (v : Byte) (s : State) :
    obRead o (nvPerform op a v s) = obRead o s := rfl
@[simp] theorem obRead_withInputs (o : Nat) (r : List Event) (s : State) : obRead o (withInputs r s) = obRead o s := rfl
@[simp] theorem obRead_presentNext (o : Nat) (p : PortWord) (s : State) :
    obRead o (presentNext p s) = obRead o s := rfl
@[simp] theorem obRead_applyReset (o : Nat) (s : State) : obRead o (applyReset s) = 0#8 := rfl
@[simp] theorem obRead_setterStepA (o : Nat) (h m : Byte) (s : State) : obRead o (setterStepA h m s) = obRead o s := rfl

/-! ### The cell array -/

/-- A performed operation sets its cell and no other. -/
theorem nvRead_nvPerform (op : NvOp) (a b : Nat) (v : Byte) (s : State) :
    nvRead b (nvPerform op a v s) = if a = b then v else nvRead b s := Memory.read_write _ _ _ _ _

@[simp] theorem nvRead_nvPerform_self (op : NvOp) (a : Nat) (v : Byte) (s : State) :
    nvRead a (nvPerform op a v s) = v := by simp [nvRead_nvPerform]

/-- The log of one performed operation. -/
theorem replayNvlog_append (xs ys : List NvOp) (a : Nat) (old : Byte) :
    replayNvlog (xs ++ ys) a old = replayNvlog ys a (replayNvlog xs a old) := List.foldl_append

@[simp] theorem replayNvlog_nil (a : Nat) (old : Byte) : replayNvlog [] a old = old := rfl

@[simp] theorem replayNvlog_single (op : NvOp) (a : Nat) (old : Byte) :
    replayNvlog [op] a old = op.apply a old := rfl

/-! ### The operand buffer -/

/-- A write sets its byte and no other. -/
theorem obRead_obWrite (o p : Nat) (v : Byte) (s : State) :
    obRead p (obWrite o v s) = if o = p then v else obRead p s := Memory.read_write _ _ _ _ _

/-- A byte string written at `off` lands byte by byte from `off` on, and no other byte changes. -/
theorem obRead_obWriteBytes (off p : Nat) (x : Bytes) (s : State) :
    obRead p (obWriteBytes off x s) =
      if off ≤ p ∧ p < off + x.length then x.getD (p - off) 0#8 else obRead p s := by
  induction x generalizing off s with
  | nil => simp [obWriteBytes, show ¬(off ≤ p ∧ p < off) by omega]
  | cons b x ih =>
    rw [obWriteBytes, ih, obRead_obWrite]
    by_cases h : off = p
    · subst h
      simp [show ¬(off + 1 ≤ off) by omega]
    · by_cases hlo : off + 1 ≤ p
      · by_cases hhi : p < off + 1 + x.length
        · have hp : p - off = (p - (off + 1)) + 1 := by omega
          simp [hlo, hhi, show off ≤ p by omega, show p < off + (x.length + 1) by omega, hp]
        · simp [hhi, h, show ¬(p < off + (x.length + 1)) by omega]
      · simp [hlo, h, show ¬(off ≤ p) by omega]

/-- Everything but the operand buffer is as before. -/
theorem obWriteBytes_eq (off : Nat) (x : Bytes) (s : State) :
    obWriteBytes off x s = { s with ob := (obWriteBytes off x s).ob } := by
  induction x generalizing off s with
  | nil => rfl
  | cons b x ih => rw [obWriteBytes, ih]; rfl

@[simp] theorem obWriteBytes_config (off : Nat) (x : Bytes) (s : State) :
    (obWriteBytes off x s).config = s.config := by rw [obWriteBytes_eq]
@[simp] theorem obWriteBytes_secondsLT (off : Nat) (x : Bytes) (s : State) :
    (obWriteBytes off x s).secondsLT = s.secondsLT := by rw [obWriteBytes_eq]
@[simp] theorem obWriteBytes_minutesLT (off : Nat) (x : Bytes) (s : State) :
    (obWriteBytes off x s).minutesLT = s.minutesLT := by rw [obWriteBytes_eq]
@[simp] theorem obWriteBytes_daysSinceEpoch (off : Nat) (x : Bytes) (s : State) :
    (obWriteBytes off x s).daysSinceEpoch = s.daysSinceEpoch := by rw [obWriteBytes_eq]
@[simp] theorem obWriteBytes_nv (off : Nat) (x : Bytes) (s : State) :
    (obWriteBytes off x s).nv = s.nv := by rw [obWriteBytes_eq]
@[simp] theorem obWriteBytes_nvlog (off : Nat) (x : Bytes) (s : State) :
    (obWriteBytes off x s).nvlog = s.nvlog := by rw [obWriteBytes_eq]
@[simp] theorem obWriteBytes_activity (off : Nat) (x : Bytes) (s : State) :
    (obWriteBytes off x s).activity = s.activity := by rw [obWriteBytes_eq]
@[simp] theorem obWriteBytes_response (off : Nat) (x : Bytes) (s : State) :
    (obWriteBytes off x s).response = s.response := by rw [obWriteBytes_eq]
@[simp] theorem obWriteBytes_inputs (off : Nat) (x : Bytes) (s : State) :
    (obWriteBytes off x s).inputs = s.inputs := by rw [obWriteBytes_eq]
@[simp] theorem nvRead_obWriteBytes (a off : Nat) (x : Bytes) (s : State) :
    nvRead a (obWriteBytes off x s) = nvRead a s := by simp [nvRead]

/-- A byte string written inside the buffer keeps the buffer canonical and inside its space. -/
theorem obWriteBytes_canonical (off : Nat) (x : Bytes) (s : State) (hlen : off + x.length ≤ obSize)
    (h : Memory.wf obCleared s.ob ∧ Memory.within obSize s.ob) :
    Memory.wf obCleared (obWriteBytes off x s).ob ∧ Memory.within obSize (obWriteBytes off x s).ob := by
  induction x generalizing off s with
  | nil => exact h
  | cons b x ih =>
    simp only [List.length_cons] at hlen
    exact ih (off + 1) _ (by omega) ⟨Memory.wf_write h.1, Memory.within_write h.2 (by omega)⟩

@[simp] theorem obReadBytes_length (off n : Nat) (s : State) : (obReadBytes off n s).length = n := by
  simp [obReadBytes]

theorem obReadBytes_getD (off n i : Nat) (s : State) (h : i < n) :
    (obReadBytes off n s).getD i 0#8 = obRead (off + i) s := by
  simp [obReadBytes, h]

/-- A byte string read is determined by its bytes. -/
theorem obReadBytes_congr {off n : Nat} {s t : State} (h : ∀ i < n, obRead (off + i) t = obRead (off + i) s) :
    obReadBytes off n t = obReadBytes off n s :=
  List.map_congr_left fun i hi => h i (List.mem_range.1 hi)

end Sys2Proof.Machine
end

