-- ==== Sys2Proof/Laws/Words.lean ====
section
/-! SUPPORT. The fields of command words built by the encoder (30_encoding R81) and of response words (R84). -/

namespace Sys2Proof

/-! ### Slices of concatenations -/

/-- The slice that is exactly the low part. -/
theorem extract_low {n m : Nat} (x : BitVec n) (y : BitVec m) : (x ++ y).extractLsb' 0 m = y :=
  (BitVec.extractLsb'_append_eq_of_add_le (by omega)).trans BitVec.extractLsb'_eq_self

/-- The slice that is exactly the high part. -/
theorem extract_high {n m : Nat} (x : BitVec n) (y : BitVec m) : (x ++ y).extractLsb' m n = x := by
  rw [BitVec.extractLsb'_append_eq_of_le (Nat.le_refl m), Nat.sub_self, BitVec.extractLsb'_eq_self]

/-- A slice above the low part is a slice of the high part. -/
theorem extract_above {n m : Nat} (x : BitVec n) (y : BitVec m) (start len : Nat) :
    (x ++ y).extractLsb' (start + m) len = x.extractLsb' start len := by
  rw [BitVec.extractLsb'_append_eq_of_le (Nat.le_add_left m start), Nat.add_sub_cancel]

/-- A bit above the low part is a bit of the high part. -/
theorem getLsbD_above {n m : Nat} (x : BitVec n) (y : BitVec m) (i : Nat) :
    (x ++ y).getLsbD (i + m) = x.getLsbD i := by
  rw [BitVec.getLsbD_append, if_neg (by omega), Nat.add_sub_cancel]

/-! ### Format Z -/

@[simp] theorem fieldOp_Z (op : Byte) (z : BitVec 24) : fieldOp (op ++ z) = op := extract_high op z
@[simp] theorem fieldLow24_Z (op : Byte) (z : BitVec 24) : fieldLow24 (op ++ z) = z := extract_low op z

/-! ### Formats A and AB -/

@[simp] theorem fieldOp_AB (op : Byte) (a : Half) (b : Byte) : fieldOp (op ++ a ++ b) = op :=
  (extract_above (op ++ a) b 16 8).trans (extract_high op a)
@[simp] theorem fieldAddr_AB (op : Byte) (a : Half) (b : Byte) : fieldAddr (op ++ a ++ b) = a :=
  (extract_above (op ++ a) b 0 16).trans (extract_low op a)
@[simp] theorem fieldByte0_AB (op : Byte) (a : Half) (b : Byte) : fieldByte0 (op ++ a ++ b) = b :=
  extract_low (op ++ a) b

/-! ### Format HM -/

@[simp] theorem fieldOp_HM (op z h m : Byte) : fieldOp (op ++ z ++ h ++ m) = op :=
  (extract_above (op ++ z ++ h) m 16 8).trans ((extract_above (op ++ z) h 8 8).trans (extract_high op z))
@[simp] theorem fieldByte2_HM (op z h m : Byte) : fieldByte2 (op ++ z ++ h ++ m) = z :=
  (extract_above (op ++ z ++ h) m 8 8).trans ((extract_above (op ++ z) h 0 8).trans (extract_low op z))
@[simp] theorem fieldByte1_HM (op z h m : Byte) : fieldByte1 (op ++ z ++ h ++ m) = h :=
  (extract_above (op ++ z ++ h) m 0 8).trans (extract_low (op ++ z) h)
@[simp] theorem fieldByte0_HM (op z h m : Byte) : fieldByte0 (op ++ z ++ h ++ m) = m :=
  extract_low (op ++ z ++ h) m

/-! ### Format G -/

@[simp] theorem fieldOp_G (op : Byte) (p z : BitVec 4) (n m : Byte) : fieldOp (op ++ p ++ z ++ n ++ m) = op :=
  (extract_above (op ++ p ++ z ++ n) m 16 8).trans ((extract_above (op ++ p ++ z) n 8 8).trans
    ((extract_above (op ++ p) z 4 8).trans (extract_high op p)))
@[simp] theorem fieldNibble4_G (op : Byte) (p z : BitVec 4) (n m : Byte) :
    fieldNibble4 (op ++ p ++ z ++ n ++ m) = z :=
  (extract_above (op ++ p ++ z ++ n) m 8 4).trans ((extract_above (op ++ p ++ z) n 0 4).trans
    (extract_low (op ++ p) z))
@[simp] theorem fieldByte1_G (op : Byte) (p z : BitVec 4) (n m : Byte) :
    fieldByte1 (op ++ p ++ z ++ n ++ m) = n :=
  (extract_above (op ++ p ++ z ++ n) m 0 8).trans (extract_low (op ++ p ++ z) n)
@[simp] theorem fieldByte0_G (op : Byte) (p z : BitVec 4) (n m : Byte) :
    fieldByte0 (op ++ p ++ z ++ n ++ m) = m := extract_low (op ++ p ++ z ++ n) m

/-- The flag bits of a `G` word are the bits of its `P` field. -/
theorem getLsbD_G (op : Byte) (p z : BitVec 4) (n m : Byte) (i : Nat) (h : i < 4) :
    (op ++ p ++ z ++ n ++ m).getLsbD (i + 4 + 8 + 8) = p.getLsbD i := by
  rw [getLsbD_above, getLsbD_above, getLsbD_above, BitVec.getLsbD_append, if_pos h]

/-- The four bits of `P` are the four flags. -/
theorem presentBits_bits (a b c d : Bool) :
    let v := presentBits ⟨a, b, c, d⟩
    PresentFlags.mk (v.getLsbD 3) (v.getLsbD 2) (v.getLsbD 1) (v.getLsbD 0) = ⟨a, b, c, d⟩ := by
  revert a b c d
  decide

@[simp] theorem fieldPresent_G (op : Byte) (p : PresentFlags) (z : BitVec 4) (n m : Byte) :
    fieldPresent (op ++ presentBits p ++ z ++ n ++ m) = p := by
  have h (i : Nat) (hi : i < 4) := getLsbD_G op (presentBits p) z n m i hi
  have hp : fieldPresent (op ++ presentBits p ++ z ++ n ++ m) =
      ⟨(presentBits p).getLsbD 3, (presentBits p).getLsbD 2, (presentBits p).getLsbD 1, (presentBits p).getLsbD 0⟩ :=
    (PresentFlags.mk.injEq ..).symm ▸ ⟨h 3 (by omega), h 2 (by omega), h 1 (by omega), h 0 (by omega)⟩
  exact hp.trans (presentBits_bits p.pIn p.pAad p.pOut p.pTag)

end Sys2Proof

namespace Sys2Proof.Machine

/-! ### Response words -/

@[simp] theorem responseStatus_responseWord (st : Status) (fl : Bool) (v : Half) :
    responseStatus (responseWord st fl v) = statusCode st :=
  (extract_above (statusCode st ++ 0#13 ++ BitVec.ofBool fl) v 14 2).trans
    ((extract_above (statusCode st ++ 0#13) (BitVec.ofBool fl) 13 2).trans (extract_high (statusCode st) 0#13))

@[simp] theorem responseZeros_responseWord (st : Status) (fl : Bool) (v : Half) :
    responseZeros (responseWord st fl v) = 0#13 :=
  (extract_above (statusCode st ++ 0#13 ++ BitVec.ofBool fl) v 1 13).trans
    ((extract_above (statusCode st ++ 0#13) (BitVec.ofBool fl) 0 13).trans (extract_low (statusCode st) 0#13))

@[simp] theorem responseFlag_responseWord (st : Status) (fl : Bool) (v : Half) :
    responseFlag (responseWord st fl v) = fl := by
  have h : responseFlag (responseWord st fl v) = (BitVec.ofBool fl).getLsbD 0 :=
    (getLsbD_above (statusCode st ++ 0#13 ++ BitVec.ofBool fl) v 0).trans (by
      rw [BitVec.getLsbD_append, if_pos (by omega)])
  rw [h]
  cases fl <;> rfl

@[simp] theorem responseValue_responseWord (st : Status) (fl : Bool) (v : Half) :
    responseValue (responseWord st fl v) = v := extract_low (statusCode st ++ 0#13 ++ BitVec.ofBool fl) v

/-- Every response word built is legal. -/
@[simp] theorem legalResponse_responseWord (st : Status) (fl : Bool) (v : Half) :
    legalResponse (responseWord st fl v) = true := by
  cases st <;> simp [legalResponse, statusCode]

end Sys2Proof.Machine
end

