-- ==== Sys2Proof/Laws/ByteStore.lean ====
section
/-! SUPPORT. What the three mutators do (40_bytestore R115 to R117), each said once: the state they leave, and from it
the cell, the boolean, the log and the frame. -/

namespace Sys2Proof.Machine

/-- A state differs from another in the cell array and its log only. -/
def OnlyNv (s t : State) : Prop := t = { s with nv := t.nv, nvlog := t.nvlog }

theorem OnlyNv.refl (s : State) : OnlyNv s s := rfl

theorem OnlyNv.trans {s t u : State} (h : OnlyNv s t) (h' : OnlyNv t u) : OnlyNv s u := by
  unfold OnlyNv at h h' ⊢
  rw [h'] ; rw [h]

theorem OnlyNv.nvPerform (op : NvOp) (a : Nat) (v : Byte) (s : State) : OnlyNv s (nvPerform op a v s) := rfl

theorem OnlyNv.config {s t : State} (h : OnlyNv s t) : t.config = s.config := by rw [h]
theorem OnlyNv.secondsLT {s t : State} (h : OnlyNv s t) : t.secondsLT = s.secondsLT := by rw [h]
theorem OnlyNv.minutesLT {s t : State} (h : OnlyNv s t) : t.minutesLT = s.minutesLT := by rw [h]
theorem OnlyNv.daysSinceEpoch {s t : State} (h : OnlyNv s t) : t.daysSinceEpoch = s.daysSinceEpoch := by rw [h]
theorem OnlyNv.ob {s t : State} (h : OnlyNv s t) : t.ob = s.ob := by rw [h]
theorem OnlyNv.activity {s t : State} (h : OnlyNv s t) : t.activity = s.activity := by rw [h]
theorem OnlyNv.response {s t : State} (h : OnlyNv s t) : t.response = s.response := by rw [h]
theorem OnlyNv.inputs {s t : State} (h : OnlyNv s t) : t.inputs = s.inputs := by rw [h]

/-- How a mutator of the cell at `a` goes from `s` to `t`: the cell ends at `new`; the boolean says whether it changed;
no other cell changes; at most one physical operation is logged, `op`, and none when nothing changed. -/
structure Mutated (a : Nat) (new : Byte) (op : NvOp) (s : State) (r : State × Bool) : Prop where
  onlyNv : OnlyNv s r.1
  cell : nvRead a r.1 = new
  flag : r.2 = decide (nvRead a s ≠ new)
  others : ∀ b, b ≠ a → nvRead b r.1 = nvRead b s
  log : r.1.nvlog = s.nvlog ++ if nvRead a s = new then [] else [op]
  opCell : op.apply a (nvRead a s) = new
  opOthers : ∀ b v, b ≠ a → op.apply b v = v
  canonical : Memory.wf nvErased s.nv → Memory.wf nvErased r.1.nv
  within : ∀ n, a < n → Memory.within n s.nv → Memory.within n r.1.nv

theorem Mutated.unchanged {a : Nat} {new : Byte} {op : NvOp} {s : State} (h : nvRead a s = new)
    (hcell : op.apply a (nvRead a s) = new) (hothers : ∀ b v, b ≠ a → op.apply b v = v) :
    Mutated a new op s (s, false) :=
  ⟨.refl s, h, by simp [h], fun _ _ => rfl, by simp [h], hcell, hothers, id, fun _ _ => id⟩

theorem Mutated.performed {a : Nat} {new : Byte} {op : NvOp} {s : State} (h : nvRead a s ≠ new)
    (hcell : op.apply a (nvRead a s) = new) (hothers : ∀ b v, b ≠ a → op.apply b v = v) :
    Mutated a new op s (nvPerform op a new s, true) :=
  ⟨.nvPerform .., by simp, by simp [h], fun b hb => by simp [nvRead_nvPerform, hb.symm], by simp [h], hcell, hothers,
    fun hw => Memory.wf_write hw, fun _ hn hw => Memory.within_write hw hn⟩

theorem NvOp.apply_erase (a b : Nat) (v : Byte) : (NvOp.erase a).apply b v = if a = b then 0xFF#8 else v := rfl
theorem NvOp.apply_write (a b : Nat) (x v : Byte) : (NvOp.write a x).apply b v = if a = b then v &&& x else v := rfl
theorem NvOp.apply_eraseWrite (a b : Nat) (x v : Byte) :
    (NvOp.eraseWrite a x).apply b v = if a = b then x else v := rfl

/-- The operation smartErase performs (40_bytestore R116). -/
def eraseOp (splitEw : Bool) (a : Nat) : NvOp := if splitEw then .erase a else .eraseWrite a 0xFF#8

/-- The operation smartClearBits performs to reach `r` (40_bytestore R117). -/
def clearOp (splitEw : Bool) (a : Nat) (r : Byte) : NvOp := if splitEw then .write a r else .eraseWrite a r

/-- The operation smartUpdate performs to take a cell from `old` to `v` (40_bytestore R115). -/
def updateOp (splitEw : Bool) (a : Nat) (old v : Byte) : NvOp :=
  if v = 0xFF#8 then eraseOp splitEw a else if old &&& v = v then clearOp splitEw a v else .eraseWrite a v

theorem smartErase_spec (a : Nat) (s : State) :
    Mutated a 0xFF#8 (eraseOp s.config.splitEw a) s (smartErase a s) := by
  have hcell : (eraseOp s.config.splitEw a).apply a (nvRead a s) = 0xFF#8 := by
    unfold eraseOp; split <;> simp [NvOp.apply_erase, NvOp.apply_eraseWrite]
  have hothers : ∀ b v, b ≠ a → (eraseOp s.config.splitEw a).apply b v = v := by
    intro b v hb
    unfold eraseOp; split <;> simp [NvOp.apply_erase, NvOp.apply_eraseWrite, hb.symm]
  unfold smartErase
  split
  · next h => exact .unchanged h hcell hothers
  · next h =>
    split
    · next hs => simpa [eraseOp, hs, nvErase] using Mutated.performed h hcell hothers
    · next hs => simpa [eraseOp, hs, nvEraseWrite] using Mutated.performed h hcell hothers

theorem smartClearBits_spec (a : Nat) (mask : Byte) (s : State) :
    Mutated a (nvRead a s &&& mask) (clearOp s.config.splitEw a (nvRead a s &&& mask)) s
      (smartClearBits a mask s) := by
  have hand : nvRead a s &&& (nvRead a s &&& mask) = nvRead a s &&& mask := by
    rw [← BitVec.and_assoc, BitVec.and_self]
  have hcell : (clearOp s.config.splitEw a (nvRead a s &&& mask)).apply a (nvRead a s) = nvRead a s &&& mask := by
    unfold clearOp; split <;> simp [NvOp.apply_write, NvOp.apply_eraseWrite, hand]
  have hothers : ∀ b v, b ≠ a → (clearOp s.config.splitEw a (nvRead a s &&& mask)).apply b v = v := by
    intro b v hb
    unfold clearOp; split <;> simp [NvOp.apply_write, NvOp.apply_eraseWrite, hb.symm]
  unfold smartClearBits
  split
  · next h => exact .unchanged h.symm hcell hothers
  · next h =>
    split
    · next hs => simpa [clearOp, hs, nvWrite, hand] using Mutated.performed (Ne.symm h) hcell hothers
    · next hs => simpa [clearOp, hs, nvEraseWrite] using Mutated.performed (Ne.symm h) hcell hothers

theorem smartUpdate_spec (a : Nat) (v : Byte) (s : State) :
    Mutated a v (updateOp s.config.splitEw a (nvRead a s) v) s (smartUpdate a v s) := by
  have he := smartErase_spec a s
  have hc := smartClearBits_spec a v s
  unfold smartUpdate updateOp
  by_cases hv : v = 0xFF#8
  · subst hv
    simp only [if_true]
    by_cases h : nvRead a s = 0xFF#8
    · rw [if_pos h]
      exact .unchanged h he.opCell he.opOthers
    · rwa [if_neg h]
  · simp only [hv, if_false]
    by_cases h : nvRead a s = v
    · rw [h, BitVec.and_self] at hc
      rw [if_pos h, h, BitVec.and_self, if_pos rfl]
      exact .unchanged h hc.opCell hc.opOthers
    · rw [if_neg h]
      by_cases hand : nvRead a s &&& v = v
      · rw [hand] at hc
        rwa [if_pos hand, if_pos hand]
      · rw [if_neg hand, if_neg hand]
        exact .performed h (by simp [NvOp.apply_eraseWrite]) fun b x hb => by
          simp [NvOp.apply_eraseWrite, hb.symm]

/-- The log a mutator leaves explains what it did to every cell. -/
theorem Mutated.replay {a : Nat} {new : Byte} {op : NvOp} {s : State} {r : State × Bool} (h : Mutated a new op s r) :
    ∃ ops, r.1.nvlog = s.nvlog ++ ops ∧ ∀ b, nvRead b r.1 = replayNvlog ops b (nvRead b s) := by
  refine ⟨_, h.log, fun b => ?_⟩
  by_cases hb : b = a
  · subst hb
    split
    · next hold => simp [h.cell, hold]
    · simp [h.cell, h.opCell]
  · rw [h.others b hb]
    split <;> simp [h.opOthers _ _ hb]

end Sys2Proof.Machine
end

