-- ==== Sys2Proof/Laws/Gcm.lean ====
section
/-! SUPPORT. The lengths of the byte strings of the cipher and of GCM (43_gcm R200: the ciphertext is as long as the
plaintext, the tag is 16 bytes), the integers behind them, and when two tags are equal. -/

namespace Sys2Proof.Machine

/-! ### Byte strings -/

@[simp] theorem xorBytes_length (x y : Bytes) : (xorBytes x y).length = min x.length y.length := by
  simp [xorBytes]

/-- XOR with one string twice gives back what it covers. -/
theorem xorBytes_xorBytes (x k : Bytes) (h : x.length ≤ k.length) : xorBytes (xorBytes x k) k = x := by
  induction x generalizing k with
  | nil => simp [xorBytes]
  | cons a x ih =>
    cases k with
    | nil => simp at h
    | cons b k =>
      simp only [xorBytes, List.zipWith_cons_cons, List.cons.injEq]
      refine ⟨by rw [BitVec.xor_assoc, BitVec.xor_self, BitVec.xor_zero], ih k (by simpa using h)⟩

@[simp] theorem beBytes_length (k v : Nat) : (beBytes k v).length = k := by
  induction k generalizing v with
  | zero => rfl
  | succ k ih => simp [beBytes, ih]

@[simp] theorem zeroBytes_length (n : Nat) : (zeroBytes n).length = n := by simp [zeroBytes]

theorem intBe_append (x : Bytes) (b : Byte) : intBe (x ++ [b]) = intBe x * 256 + b.toNat := by
  simp [intBe]

/-- The integer of a big-endian encoding is the low bits encoded (00_scope R10). -/
theorem intBe_beBytes (k v : Nat) : intBe (beBytes k v) = v % 256 ^ k := by
  induction k generalizing v with
  | zero => simp [beBytes, intBe, Nat.mod_one]
  | succ k ih =>
    have hmod : v % 256 ^ (k + 1) = v % 256 + 256 * (v / 256 % 256 ^ k) := by
      rw [Nat.pow_succ', Nat.mod_mul]
    rw [beBytes, intBe_append, ih, BitVec.toNat_ofNat, hmod]
    omega

theorem intBe_lt (x : Bytes) : intBe x < 256 ^ x.length := by
  induction x using List.reverseRecOn with
  | nil => simp [intBe]
  | append_singleton x b ih =>
    rw [intBe_append, List.length_append, List.length_singleton, pow_succ]
    have := b.isLt
    omega

/-- A byte string is the encoding of its integer (00_scope R10). -/
theorem beBytes_intBe (x : Bytes) : beBytes x.length (intBe x) = x := by
  induction x using List.reverseRecOn with
  | nil => rfl
  | append_singleton x b ih =>
    have hb := b.isLt
    rw [List.length_append, List.length_singleton, beBytes, intBe_append,
      show (intBe x * 256 + b.toNat) / 256 = intBe x by omega,
      show (intBe x * 256 + b.toNat) % 256 = b.toNat by omega, ih, BitVec.ofNat_toNat, BitVec.setWidth_eq]

/-! ### The cipher -/

@[simp] theorem subBytes_length (s : Bytes) : (subBytes s).length = s.length := by simp [subBytes]
@[simp] theorem shiftRows_length (s : Bytes) : (shiftRows s).length = 16 := by simp [shiftRows, shiftRowsIndex]

theorem mixColumns_length (s : Bytes) (h : s.length = 16) : (mixColumns s).length = 16 := by
  match s, h with
  | [_, _, _, _, _, _, _, _, _, _, _, _, _, _, _, _], _ => rfl

/-- Every word of a list of words is four bytes. -/
def FourByteWords (w : List Bytes) : Prop := ∀ x ∈ w, x.length = 4

theorem scheduleWord_length (j : Nat) (t : Bytes) (h : t.length = 4) : (scheduleWord j t).length = 4 := by
  unfold scheduleWord
  split <;> simp [subWord, rotWord, h]

theorem getD_length {w : List Bytes} (h : FourByteWords w) {i : Nat} (hi : i < w.length) :
    (w.getD i []).length = 4 := by
  rw [List.getD_eq_getElem _ _ hi]
  exact h _ (List.getElem_mem hi)

theorem expandWord_spec (w : List Bytes) (j : Nat) (h : FourByteWords w) (hj : w.length = j) (h4 : 4 ≤ j) :
    FourByteWords (expandWord w j) ∧ (expandWord w j).length = j + 1 := by
  refine ⟨fun x hx => ?_, by simp [expandWord, hj]⟩
  rcases List.mem_append.1 hx with hx | hx
  · exact h x hx
  · rw [List.mem_singleton.1 hx, xorBytes_length, getD_length h (by omega),
      scheduleWord_length _ _ (getD_length h (by omega)), Nat.min_self]

theorem expandWords_spec (n j : Nat) (w : List Bytes) (h : FourByteWords w) (hj : w.length = j) (h4 : 4 ≤ j) :
    FourByteWords ((List.range' j n).foldl expandWord w) ∧
      ((List.range' j n).foldl expandWord w).length = j + n := by
  induction n generalizing j w with
  | zero => simpa using ⟨h, hj⟩
  | succ n ih =>
    obtain ⟨h', hl⟩ := expandWord_spec w j h hj h4
    rw [List.range'_succ, List.foldl_cons]
    obtain ⟨h'', hl'⟩ := ih (j + 1) _ h' hl (by omega)
    exact ⟨h'', by omega⟩

theorem keyWords_spec (key : Bytes) (h : key.length = 16) :
    FourByteWords (keyWords key) ∧ (keyWords key).length = 4 := by
  refine ⟨fun x hx => ?_, by simp [keyWords]⟩
  obtain ⟨j, hj, rfl⟩ := List.mem_map.1 hx
  have := List.mem_range.1 hj
  simp only [List.length_take, List.length_drop, h]
  omega

/-- The key expansion gives 44 words of four bytes (42_aes128 R188). -/
theorem keyExpand_spec (key : Bytes) (h : key.length = 16) :
    FourByteWords (keyExpand key) ∧ (keyExpand key).length = 44 := by
  obtain ⟨hw, hl⟩ := keyWords_spec key h
  exact expandWords_spec 40 4 _ hw hl (Nat.le_refl 4)

/-- Each of the eleven round keys is sixteen bytes (42_aes128 R188). -/
theorem roundKey_length (key : Bytes) (r : Nat) (h : key.length = 16) (hr : r ≤ 10) :
    (roundKey (keyExpand key) r).length = 16 := by
  obtain ⟨hw, hl⟩ := keyExpand_spec key h
  simp only [roundKey, List.length_append]
  rw [getD_length hw (by omega), getD_length hw (by omega), getD_length hw (by omega), getD_length hw (by omega)]

theorem aesRound_length (key s : Bytes) (r : Nat) (h : key.length = 16) (hr : r ≤ 10) :
    (aesRound (keyExpand key) s r).length = 16 := by
  have := mixColumns_length (shiftRows (subBytes s)) (by simp)
  simp [aesRound, addRoundKey, this, roundKey_length key r h hr]

/-- The cipher gives a 16-byte block (42_aes128 R189). -/
@[simp] theorem aesEncrypt_length (key block : Bytes) (h : key.length = 16) :
    (aesEncrypt key block).length = 16 := by
  simp [aesEncrypt, aesRounds, addRoundKey, roundKey_length key 10 h]

/-! ### GCM -/

@[simp] theorem blockOfGf_length (x : GfElem) : (blockOfGf x).length = 16 := by simp [blockOfGf]
@[simp] theorem gf128Mul_length (x y : Bytes) : (gf128Mul x y).length = 16 := by simp [gf128Mul]

/-- The element of a block and the block of an element are inverse to each other (43_gcm R201). -/
@[simp] theorem gfOfBlock_blockOfGf (x : GfElem) : gfOfBlock (blockOfGf x) = x := by
  apply BitVec.eq_of_toNat_eq
  rw [gfOfBlock, blockOfGf, intBe_beBytes, BitVec.toNat_ofNat]
  have := x.isLt
  omega

theorem blockOfGf_gfOfBlock (x : Bytes) (h : x.length = 16) : blockOfGf (gfOfBlock x) = x := by
  have hlt := intBe_lt x
  rw [h] at hlt
  rw [blockOfGf, gfOfBlock, BitVec.toNat_ofNat, Nat.mod_eq_of_lt (by omega), ← h, beBytes_intBe]

/-- `inc32` gives a 16-byte block (43_gcm R203). -/
theorem inc32_length (x : Bytes) (h : x.length = 16) : (inc32 x).length = 16 := by
  simp [inc32, be32, h]

theorem gctrBlocks_length (key : Bytes) (hk : key.length = 16) (k : Nat) (cb x : Bytes) (h : x.length ≤ 16 * k) :
    (gctrBlocks key k cb x).length = x.length := by
  induction k generalizing cb x with
  | zero => simp only [gctrBlocks, List.length_nil]; omega
  | succ k ih =>
    rw [gctrBlocks, List.length_append, ih _ _ (by simp only [List.length_drop]; omega), xorBytes_length,
      aesEncrypt_length _ _ hk, List.length_take, List.length_drop]
    omega

/-- Counter mode keeps the length (43_gcm R204). -/
@[simp] theorem gctr_length (key icb x : Bytes) (hk : key.length = 16) : (gctr key icb x).length = x.length :=
  gctrBlocks_length key hk _ _ _ (by omega)

@[simp] theorem gcmCrypt_length (key iv x : Bytes) (hk : key.length = 16) : (gcmCrypt key iv x).length = x.length := by
  simp [gcmCrypt, hk]

theorem ghashFold_length (h : Bytes) (ds : List Bytes) (y : Bytes) (hy : y.length = 16) :
    (ds.foldl (ghashStep h) y).length = 16 := by
  induction ds generalizing y with
  | nil => exact hy
  | cons d ds ih => exact ih _ (by simp [ghashStep])

/-- GHASH gives a 16-byte block (43_gcm R205). -/
@[simp] theorem ghash_length (h a c : Bytes) : (ghash h a c).length = 16 := ghashFold_length h _ _ (by simp)

/-- The tag is 16 bytes (43_gcm R206). -/
@[simp] theorem gcmTag_length (key iv a c : Bytes) (hk : key.length = 16) : (gcmTag key iv a c).length = 16 := by
  simp [gcmTag, hk]

@[simp] theorem gcmKey_length (s : State) : (gcmKey s).length = 16 := by simp [gcmKey]
@[simp] theorem gcmIv_length (s : State) : (gcmIv s).length = 12 := by simp [gcmIv]
@[simp] theorem gcmTagIn_length (s : State) : (gcmTagIn s).length = 16 := by simp [gcmTagIn]
@[simp] theorem gcmAad_length (m : Byte) (s : State) : (gcmAad m s).length = m.toNat := by simp [gcmAad]
@[simp] theorem gcmText_length (n : Byte) (s : State) : (gcmText n s).length = n.toNat := by simp [gcmText]
@[simp] theorem encryptedText_length (n : Byte) (s : State) : (encryptedText n s).length = n.toNat := by
  simp [encryptedText]
@[simp] theorem decryptedText_length (n : Byte) (s : State) : (decryptedText n s).length = n.toNat := by
  simp [decryptedText]
@[simp] theorem encryptedTag_length (n m : Byte) (s : State) : (encryptedTag n m s).length = 16 := by
  simp [encryptedTag]
@[simp] theorem expectedTag_length (n m : Byte) (s : State) : (expectedTag n m s).length = 16 := by
  simp [expectedTag]

/-! ### The tag comparison -/

theorem xor_eq_zero (a b : Byte) : a ^^^ b = 0#8 ↔ a = b := BitVec.xor_eq_zero_iff

theorem orFold_eq_zero (x : Bytes) (acc : Byte) :
    x.foldl (fun acc b => acc ||| b) acc = 0#8 ↔ acc = 0#8 ∧ ∀ b ∈ x, b = 0#8 := by
  induction x generalizing acc with
  | nil => simp
  | cons b x ih => simp [ih, and_assoc]

/-- `tag_equal` is equality of strings of one length (43_gcm R208). -/
theorem tagEqual_iff (x y : Bytes) (h : x.length = y.length) : tagEqual x y = true ↔ x = y := by
  simp only [tagEqual, decide_eq_true_eq, orFold_eq_zero, true_and]
  induction x generalizing y with
  | nil => cases y <;> simp_all [xorBytes]
  | cons a x ih =>
    cases y with
    | nil => simp at h
    | cons b y =>
      simp only [xorBytes, List.zipWith_cons_cons, List.mem_cons, forall_eq_or_imp, xor_eq_zero, List.cons.injEq]
      exact and_congr_right fun _ => ih y (by simpa using h)

end Sys2Proof.Machine
end

