-- ==== Sys2Proof/Laws/PerInstr.lean ====
section
/-! SUPPORT. For every instruction: the word its encoding presents matches its row of 30_encoding R86 under the row's
mask, and only the tick is a pulse (R85). -/

namespace Sys2Proof.Laws.RowBits

/-- The word of a command meets `W & mask = match` for its row; an instruction without a row is presented as a pulse. -/
def Statement (i : Instr) : Prop :=
  match encode i, opcodeRow i with
  | .command w, some row => w &&& row.2 = row.1 ∧ row ∈ opcodeTable
  | .pulse, none => True
  | _, _ => False

/-! ### Masking a word of each format -/

theorem mask_A (op : Byte) (a : Half) :
    (op ++ a ++ 0#8) &&& (0xFF#8 ++ 0#16 ++ 0xFF#8) = op ++ 0#16 ++ 0#8 := by
  rw [BitVec.and_append, BitVec.and_append, BitVec.and_zero, BitVec.zero_and,
    show (0xFF#8 : Byte) = BitVec.allOnes 8 from rfl, BitVec.and_allOnes]

theorem mask_AB (op : Byte) (a : Half) (b : Byte) :
    (op ++ a ++ b) &&& (0xFF#8 ++ 0#16 ++ 0#8) = op ++ 0#16 ++ 0#8 := by
  rw [BitVec.and_append, BitVec.and_append, BitVec.and_zero, BitVec.and_zero,
    show (0xFF#8 : Byte) = BitVec.allOnes 8 from rfl, BitVec.and_allOnes]

theorem mask_HM (op h m : Byte) :
    (op ++ 0#8 ++ h ++ m) &&& (0xFF#8 ++ 0xFF#8 ++ 0#8 ++ 0#8) = op ++ 0#8 ++ 0#8 ++ 0#8 := by
  rw [BitVec.and_append, BitVec.and_append, BitVec.and_append, BitVec.and_zero, BitVec.and_zero, BitVec.zero_and,
    show (0xFF#8 : Byte) = BitVec.allOnes 8 from rfl, BitVec.and_allOnes]

theorem mask_G (op : Byte) (p : BitVec 4) (n m : Byte) :
    (op ++ p ++ 0#4 ++ n ++ m) &&& (0xFF#8 ++ 0#4 ++ 0xF#4 ++ 0#8 ++ 0#8) = op ++ 0#4 ++ 0#4 ++ 0#8 ++ 0#8 := by
  rw [BitVec.and_append, BitVec.and_append, BitVec.and_append, BitVec.and_append, BitVec.and_zero, BitVec.and_zero,
    BitVec.and_zero, BitVec.zero_and, show (0xFF#8 : Byte) = BitVec.allOnes 8 from rfl, BitVec.and_allOnes]

/-! ### One lemma for each instruction -/

theorem bsRead (addr : Half) : Statement (.bsRead addr) := ⟨mask_A _ _, by decide⟩
theorem bsUpdate (addr : Half) (value : Byte) : Statement (.bsUpdate addr value) := ⟨mask_AB _ _ _, by decide⟩
theorem bsErase (addr : Half) : Statement (.bsErase addr) := ⟨mask_A _ _, by decide⟩
theorem bsClrbits (addr : Half) (mask : Byte) : Statement (.bsClrbits addr mask) := ⟨mask_AB _ _ _, by decide⟩
theorem rtcSethm (hours minutes : Byte) : Statement (.rtcSethm hours minutes) := ⟨mask_HM _ _ _, by decide⟩
theorem rtcPersist : Statement .rtcPersist := ⟨by decide, by decide⟩
theorem rtcRestore : Statement .rtcRestore := ⟨by decide, by decide⟩
theorem rtcGetsec : Statement .rtcGetsec := ⟨by decide, by decide⟩
theorem rtcGetmsm : Statement .rtcGetmsm := ⟨by decide, by decide⟩
theorem rtcGetdays : Statement .rtcGetdays := ⟨by decide, by decide⟩
theorem rtcGethours : Statement .rtcGethours := ⟨by decide, by decide⟩
theorem rtcGetmins : Statement .rtcGetmins := ⟨by decide, by decide⟩
theorem gcmEncrypt (p : PresentFlags) (n m : Byte) : Statement (.gcmEncrypt p n m) := ⟨mask_G _ _ _ _, by decide⟩
theorem gcmDecrypt (p : PresentFlags) (n m : Byte) : Statement (.gcmDecrypt p n m) := ⟨mask_G _ _ _ _, by decide⟩
theorem obWr (off : Half) (byte : Byte) : Statement (.obWr off byte) := ⟨mask_AB _ _ _, by decide⟩
theorem obRd (off : Half) : Statement (.obRd off) := ⟨mask_A _ _, by decide⟩
theorem rtcTick : Statement .rtcTick := trivial

end Sys2Proof.Laws.RowBits
end

