-- ==== Sys2Proof/Laws/Rtc.lean ====
section
/-! SUPPORT. What the clock's operations do, each said once: the tick (41_rtc R140), the persisted byte (R146, R149),
persist (R147), restore (R150). -/

namespace Sys2Proof.Machine

/-! ### Tick -/

/-- The counters after a tick (41_rtc R140): seconds below the carry, minute carry, day carry. -/
theorem tick_cases (s : State) :
    (s.secondsLT.toNat + s.config.tickLen ≤ 59 ∧
      tick s = { s with secondsLT := BitVec.ofNat 8 (s.secondsLT.toNat + s.config.tickLen) }) ∨
    (59 < s.secondsLT.toNat + s.config.tickLen ∧ s.minutesLT.toNat + 1 ≤ 1439 ∧
      tick s = { s with secondsLT := 0#8, minutesLT := BitVec.ofNat 16 (s.minutesLT.toNat + 1) }) ∨
    (59 < s.secondsLT.toNat + s.config.tickLen ∧ 1439 < s.minutesLT.toNat + 1 ∧
      tick s = { s with
        secondsLT := 0#8, minutesLT := 0#16
        daysSinceEpoch := BitVec.ofNat 16 ((s.daysSinceEpoch.toNat + 1) % 65536) }) := by
  unfold tick carryMinute
  by_cases hs : s.secondsLT.toNat + s.config.tickLen > 59
  · by_cases hm : s.minutesLT.toNat + 1 > 1439
    · exact .inr (.inr ⟨hs, hm, by simp [hs, hm, carryDay]⟩)
    · exact .inr (.inl ⟨hs, by omega, by simp [hs, hm]⟩)
  · exact .inl ⟨by omega, by simp [hs]⟩

/-- A tick changes the three counters and nothing else (20_memory R60). -/
theorem tick_eq (s : State) :
    tick s = { s with
      secondsLT := (tick s).secondsLT, minutesLT := (tick s).minutesLT
      daysSinceEpoch := (tick s).daysSinceEpoch } := by
  rcases tick_cases s with ⟨_, h⟩ | ⟨_, _, h⟩ | ⟨_, _, h⟩ <;> rw [h]

@[simp] theorem tick_config (s : State) : (tick s).config = s.config := by rw [tick_eq]
@[simp] theorem tick_nv (s : State) : (tick s).nv = s.nv := by rw [tick_eq]
@[simp] theorem tick_nvlog (s : State) : (tick s).nvlog = s.nvlog := by rw [tick_eq]
@[simp] theorem tick_ob (s : State) : (tick s).ob = s.ob := by rw [tick_eq]
@[simp] theorem tick_activity (s : State) : (tick s).activity = s.activity := by rw [tick_eq]
@[simp] theorem tick_response (s : State) : (tick s).response = s.response := by rw [tick_eq]
@[simp] theorem tick_inputs (s : State) : (tick s).inputs = s.inputs := by rw [tick_eq]
@[simp] theorem nvRead_tick (a : Nat) (s : State) : nvRead a (tick s) = nvRead a s := by simp [nvRead]
@[simp] theorem obRead_tick (o : Nat) (s : State) : obRead o (tick s) = obRead o s := by simp [obRead]

/-! ### The persisted byte -/

/-- The fields of a byte built from an hour below 32 and a quarter. -/
theorem hhq_fields : ∀ h < 24, ∀ q < 4,
    (((BitVec.ofNat 8 h <<< 3) ||| quarterCode q).extractLsb' 3 5).toNat = h ∧
    quarterOfCode (((BitVec.ofNat 8 h <<< 3) ||| quarterCode q).extractLsb' 0 3) = some q := by decide

/-- The byte of a minute of the day (41_rtc R146). -/
theorem hhqEncode_of_le (m : Half) (h : m.toNat ≤ 1439) :
    hhqEncode m = (BitVec.ofNat 8 (m.toNat / 60) <<< 3) ||| quarterCode (m.toNat % 60 / 15) := if_pos h

/-- Encoding a minute of the day and decoding it gives the start of its quarter-hour plus the bias (41_rtc R158). -/
theorem hhqDecode_hhqEncode (bias : Nat) (m : Half) (h : m.toNat ≤ 1439) :
    hhqDecode bias (hhqEncode m) = some (m.toNat / 15 * 15 + bias) := by
  obtain ⟨h5, h3⟩ := hhq_fields (m.toNat / 60) (by omega) (m.toNat % 60 / 15) (by omega)
  unfold hhqDecode
  rw [hhqEncode_of_le m h]
  simp only [h5, h3, Option.map_some]
  rw [if_neg (by omega)]
  congr 1
  omega

/-- What decoding a byte gives is at most 23:45 plus the bias (41_rtc R149). -/
theorem hhqDecode_le {bias r : Nat} {b : Byte} (h : hhqDecode bias b = some r) : r ≤ 1425 + bias := by
  unfold hhqDecode at h
  simp only at h
  split at h
  · exact absurd h (by simp)
  · obtain ⟨q, hq, rfl⟩ := Option.map_eq_some_iff.1 h
    have : q ≤ 3 := by
      unfold quarterOfCode at hq
      split at hq <;> [skip; (split at hq <;> [skip; (split at hq <;> [skip; split at hq])])]
      all_goals simp_all
      all_goals omega
    omega

/-! ### The stored day counter -/

/-- The bytes of the stored day counter are the two cells (20_memory R52). -/
theorem storedDays_low (s : State) : (storedDays s).extractLsb' 0 8 = nvRead s.config.nvAddrDays s :=
  extract_low (nvRead (s.config.nvAddrDays + 1) s) (nvRead s.config.nvAddrDays s)

theorem storedDays_high (s : State) : (storedDays s).extractLsb' 8 8 = nvRead (s.config.nvAddrDays + 1) s :=
  extract_high (nvRead (s.config.nvAddrDays + 1) s) (nvRead s.config.nvAddrDays s)

/-- A u16 is its two bytes. -/
theorem half_bytes (d : Half) : d.extractLsb' 8 8 ++ d.extractLsb' 0 8 = d :=
  (BitVec.extractLsb'_append_extractLsb'_eq_extractLsb' (by omega)).trans BitVec.extractLsb'_eq_self

theorem storedDays_congr {s t : State} (hc : t.config = s.config)
    (h0 : nvRead s.config.nvAddrDays t = nvRead s.config.nvAddrDays s)
    (h1 : nvRead (s.config.nvAddrDays + 1) t = nvRead (s.config.nvAddrDays + 1) s) : storedDays t = storedDays s := by
  simp only [storedDays, hc, h0, h1]

/-! ### The configuration keeps the three cells apart -/

/-- The HH:quarter cell lies in another page, so it is neither day cell (00_scope R7). -/
theorem wf_hhq_ne {c : Config} (h : c.wf) : c.nvAddrHhq ≠ c.nvAddrDays ∧ c.nvAddrHhq ≠ c.nvAddrDays + 1 := by
  obtain ⟨-, -, ⟨hp, -⟩, -, -, halign, hpage, -⟩ := h
  refine ⟨fun e => hpage (by rw [e]), fun e => hpage ?_⟩
  rw [e, Nat.add_div (by omega), halign, Nat.mod_eq_of_lt (show 1 < c.nvPage by omega),
    Nat.div_eq_of_lt (show 1 < c.nvPage by omega)]
  simp [show ¬ c.nvPage ≤ 1 by omega]

/-! ### Persist -/

/-- Persist changes cells and the log only (41_rtc R147). -/
theorem persist_onlyNv (s : State) : OnlyNv s (persist s) := by
  have h1 := (smartUpdate_spec s.config.nvAddrHhq (hhqEncode s.minutesLT) s).onlyNv
  unfold persist
  simp only
  split
  · exact h1
  · exact (h1.trans (smartUpdate_spec _ _ _).onlyNv).trans (smartUpdate_spec _ _ _).onlyNv

/-- What persist leaves in the cells (41_rtc R147): the encoded minute, the day counter, and every other cell as it
was. -/
theorem persist_cells (s : State) (h : s.config.wf) :
    nvRead s.config.nvAddrHhq (persist s) = hhqEncode s.minutesLT ∧
    storedDays (persist s) = s.daysSinceEpoch ∧
    ∀ a, a ≠ s.config.nvAddrHhq → a ≠ s.config.nvAddrDays → a ≠ s.config.nvAddrDays + 1 →
      nvRead a (persist s) = nvRead a s := by
  obtain ⟨hne, hne'⟩ := wf_hhq_ne h
  have h1 := smartUpdate_spec s.config.nvAddrHhq (hhqEncode s.minutesLT) s
  unfold persist
  simp only
  generalize (smartUpdate s.config.nvAddrHhq (hhqEncode s.minutesLT) s) = r1 at h1 ⊢
  have hcfg : r1.1.config = s.config := h1.onlyNv.config
  split
  · next hd => exact ⟨h1.cell, hd, fun a ha _ _ => h1.others a ha⟩
  · unfold persistDays
    simp only [hcfg]
    have h2 := smartUpdate_spec s.config.nvAddrDays (s.daysSinceEpoch.extractLsb' 0 8) r1.1
    generalize (smartUpdate s.config.nvAddrDays (s.daysSinceEpoch.extractLsb' 0 8) r1.1) = r2 at h2 ⊢
    have h3 := smartUpdate_spec (s.config.nvAddrDays + 1) (s.daysSinceEpoch.extractLsb' 8 8) r2.1
    generalize (smartUpdate (s.config.nvAddrDays + 1) (s.daysSinceEpoch.extractLsb' 8 8) r2.1) = r3 at h3 ⊢
    refine ⟨?_, ?_, fun a ha ha0 ha1 => ?_⟩
    · rw [h3.others _ hne', h2.others _ hne, h1.cell]
    · unfold storedDays
      rw [h3.onlyNv.config, h2.onlyNv.config, hcfg, h3.cell, h3.others _ (by omega), h2.cell, half_bytes]
    · rw [h3.others _ ha1, h2.others _ ha0, h1.others _ ha]

/-- The log persist leaves explains what it did to every cell (10_state R25, R27). -/
theorem persist_replay (s : State) :
    ∃ ops, (persist s).nvlog = s.nvlog ++ ops ∧ ∀ b, nvRead b (persist s) = replayNvlog ops b (nvRead b s) := by
  obtain ⟨ops1, hl1, hr1⟩ := (smartUpdate_spec s.config.nvAddrHhq (hhqEncode s.minutesLT) s).replay
  unfold persist
  simp only
  generalize (smartUpdate s.config.nvAddrHhq (hhqEncode s.minutesLT) s) = r1 at hl1 hr1 ⊢
  split
  · exact ⟨ops1, hl1, hr1⟩
  · unfold persistDays
    simp only
    obtain ⟨ops2, hl2, hr2⟩ := (smartUpdate_spec r1.1.config.nvAddrDays (s.daysSinceEpoch.extractLsb' 0 8) r1.1).replay
    generalize (smartUpdate r1.1.config.nvAddrDays (s.daysSinceEpoch.extractLsb' 0 8) r1.1) = r2 at hl2 hr2 ⊢
    obtain ⟨ops3, hl3, hr3⟩ :=
      (smartUpdate_spec (r1.1.config.nvAddrDays + 1) (s.daysSinceEpoch.extractLsb' 8 8) r2.1).replay
    refine ⟨ops1 ++ ops2 ++ ops3, ?_, fun b => ?_⟩
    · rw [hl3, hl2, hl1, List.append_assoc, List.append_assoc, List.append_assoc]
    · rw [hr3, hr2, hr1, replayNvlog_append, replayNvlog_append]

/-- Persist keeps the cell array canonical and inside its space. -/
theorem persist_canonical (s : State) (hcfg : s.config.wf)
    (h : Memory.wf nvErased s.nv ∧ Memory.within s.config.nvSize s.nv) :
    Memory.wf nvErased (persist s).nv ∧ Memory.within s.config.nvSize (persist s).nv := by
  obtain ⟨-, -, -, hhhq, hdays, -⟩ := hcfg
  have h1 := smartUpdate_spec s.config.nvAddrHhq (hhqEncode s.minutesLT) s
  unfold persist
  simp only
  generalize (smartUpdate s.config.nvAddrHhq (hhqEncode s.minutesLT) s) = r1 at h1 ⊢
  have hc : r1.1.config = s.config := h1.onlyNv.config
  have hr1 := And.intro (h1.canonical h.1) (h1.within _ hhhq h.2)
  split
  · exact hr1
  · unfold persistDays
    simp only [hc]
    have h2 := smartUpdate_spec s.config.nvAddrDays (s.daysSinceEpoch.extractLsb' 0 8) r1.1
    generalize (smartUpdate s.config.nvAddrDays (s.daysSinceEpoch.extractLsb' 0 8) r1.1) = r2 at h2 ⊢
    have h3 := smartUpdate_spec (s.config.nvAddrDays + 1) (s.daysSinceEpoch.extractLsb' 8 8) r2.1
    exact ⟨h3.canonical (h2.canonical hr1.1), h3.within _ hdays (h2.within _ (by omega) hr1.2)⟩

/-! ### Restore -/

/-- Restore changes `minutesLT` and `daysSinceEpoch` only (41_rtc R150). -/
theorem restore_eq (s : State) :
    (restore s).1 = { s with
      daysSinceEpoch := if storedDays s = 0xFFFF#16 then s.daysSinceEpoch else storedDays s
      minutesLT := match hhqDecode s.config.restoreBias (nvRead s.config.nvAddrHhq s) with
        | none => s.minutesLT
        | some r => BitVec.ofNat 16 r } := by
  unfold restore restoreDays
  cases hhqDecode s.config.restoreBias (nvRead s.config.nvAddrHhq s) <;> by_cases h : storedDays s = 0xFFFF#16 <;> simp [h]

/-- Restore succeeds exactly on a valid byte (41_rtc R150). -/
theorem restore_flag (s : State) :
    (restore s).2 = (hhqDecode s.config.restoreBias (nvRead s.config.nvAddrHhq s)).isSome := by
  unfold restore
  cases hhqDecode s.config.restoreBias (nvRead s.config.nvAddrHhq s) <;> rfl

end Sys2Proof.Machine
end

