-- ==== Sys2Proof/Laws/Step.lean ====
section
/-! SUPPORT. What one step can do, said once: which action it takes, and what a command answers when it completes. -/

namespace Sys2Proof.Machine

/-! ### Actions -/

theorem decode_pulse : decode .pulse = .ok .rtcTick := rfl

@[simp] theorem portAction_pulse : portAction .pulse = .run .rtcTick := rfl

theorem portAction_ok {p : PortWord} {i : Instr} (h : decode p = .ok i) : portAction p = .run i := by
  simp [portAction, h]

theorem portAction_error {p : PortWord} {e : DecodeError} (h : decode p = .error e) : portAction p = .illegalWord := by
  simp [portAction, h]

/-- While no command runs and no event is left, the block waits. -/
theorem step_wait (s : State) (ha : s.activity = .idle) (hi : s.inputs = []) : step s = .next (withInputs [] s) := by
  simp [step, nextAction, ha, idleAction, hi, perform]

/-- While no command runs, a presentation at the head of the events is what the step takes. -/
theorem step_port (s : State) (p : PortWord) (rest : List Event) (ha : s.activity = .idle)
    (hi : s.inputs = .port p :: rest) : step s = perform (portAction p) (withInputs rest s) := by
  simp [step, nextAction, ha, idleAction, hi]

/-- While no command runs, a reset at the head of the events is what the step takes. -/
theorem step_reset (s : State) (rest : List Event) (ha : s.activity = .idle) (hi : s.inputs = .reset :: rest) :
    step s = .next (applyReset (withInputs rest s)) := by
  simp [step, nextAction, ha, idleAction, hi, perform]

/-- A tick placed inside a command is a tick step, whatever the activity. -/
theorem step_tickInCommand (s : State) (rest : List Event) (hi : s.inputs = .tickInCommand :: rest) :
    step s = .next (tick (withInputs rest s)) := by
  cases ha : s.activity <;>
    simp [step, nextAction, ha, idleAction, setterAction, hi, perform, exec, execRtcTick]

/-- Between the setter's steps every other head of the events leaves step B to be taken. -/
theorem step_setter (s : State) (ha : s.activity = .setterStepB) (hi : ∀ rest, s.inputs ≠ .tickInCommand :: rest) :
    step s = setterStepB s := by
  have h : setterAction s.inputs = (.finishSetter, s.inputs) := by
    unfold setterAction
    split
    · next h => exact absurd h (hi _)
    · rfl
  simp only [step, nextAction, ha, h, perform]
  rfl

/-- Every step is one of these. -/
theorem step_cases (s : State) :
    (s.activity = .idle ∧ s.inputs = [] ∧ step s = .next (withInputs [] s)) ∨
    (∃ p rest i, s.activity = .idle ∧ s.inputs = .port p :: rest ∧ decode p = .ok i ∧
      step s = exec i (withInputs rest s)) ∨
    (∃ p rest e, s.activity = .idle ∧ s.inputs = .port p :: rest ∧ decode p = .error e ∧
      step s = raiseIllegal (withInputs rest s)) ∨
    (∃ rest, s.inputs = .tickInCommand :: rest ∧ step s = .next (tick (withInputs rest s))) ∨
    (∃ rest, s.activity = .idle ∧ s.inputs = .reset :: rest ∧ step s = .next (applyReset (withInputs rest s))) ∨
    (s.activity = .setterStepB ∧ step s = setterStepB s) := by
  cases ha : s.activity with
  | idle =>
    cases hi : s.inputs with
    | nil => exact .inl ⟨rfl, rfl, step_wait s ha hi⟩
    | cons e rest =>
      cases e with
      | port p =>
        cases hd : decode p with
        | ok i =>
          exact .inr (.inl ⟨p, rest, i, rfl, rfl, hd, by rw [step_port s p rest ha hi, portAction_ok hd]; rfl⟩)
        | error e =>
          exact .inr (.inr (.inl ⟨p, rest, e, rfl, rfl, hd, by
            rw [step_port s p rest ha hi, portAction_error hd]; rfl⟩))
      | tickInCommand => exact .inr (.inr (.inr (.inl ⟨rest, rfl, step_tickInCommand s rest hi⟩)))
      | reset => exact .inr (.inr (.inr (.inr (.inl ⟨rest, rfl, rfl, step_reset s rest ha hi⟩))))
  | setterStepB =>
    by_cases hi : ∃ rest, s.inputs = .tickInCommand :: rest
    · obtain ⟨rest, hi⟩ := hi
      exact .inr (.inr (.inr (.inl ⟨rest, hi, step_tickInCommand s rest hi⟩)))
    · exact .inr (.inr (.inr (.inr (.inr ⟨rfl, step_setter s ha fun rest h => hi ⟨rest, h⟩⟩))))

/-! ### Commands with an address -/

/-- A command that checks an address and then completes answers a next state exactly when the address is valid. -/
theorem checked_next {c : Prop} [Decidable c] {fl : Bool} {v : Half} {x s t : State} :
    (if c then complete fl v x else raiseAddress s) = .next t ↔ c ∧ t = respond .ok fl v x := by
  by_cases hc : c <;> simp [hc, complete, raiseAddress, eq_comm]

/-- ... and faults exactly when it is not. -/
theorem checked_fault {c : Prop} [Decidable c] {fl : Bool} {v : Half} {x s : State} {r : Fault} :
    (if c then complete fl v x else raiseAddress s) = .fault r ↔
      ¬c ∧ r = .address (respond .address false 0#16 s) := by
  by_cases hc : c <;> simp [hc, complete, raiseAddress, eq_comm]

theorem checked_refused {c : Prop} [Decidable c] {fl : Bool} {v : Half} {x s : State} {r : Refusal} :
    (if c then complete fl v x else raiseAddress s) ≠ .refused r := by
  by_cases hc : c <;> simp [hc, complete, raiseAddress]

end Sys2Proof.Machine
end

