-- ==== Sys2Proof/Tests/Slice0.lean ====
section
/-! SUPPORT. The model's own tests: what WellFormed refuses, words written out from the encoding, single steps with the
results of spec/95_test_vectors, reference values of the cipher, and for every obligation with hypotheses a witness
that meets them together. -/

namespace Sys2Proof.Tests

open Sys2Proof.Machine

/-! ### Helpers -/

/-- A block whose cell `a` holds `v`, every other cell erased. -/
def withCell (a : Nat) (v : Byte) : State := { State.reset with nv := [(a, v)] }

/-- A block with these counters. -/
def withClock (sec : Byte) (min day : Half) : State :=
  { State.reset with secondsLT := sec, minutesLT := min, daysSinceEpoch := day }

/-- A block with these counters whose three clock cells hold HHQ, DLO and DHI. -/
def withStored (sec : Byte) (min day : Half) (hhq dlo dhi : Byte) : State :=
  { withClock sec min day with
    nv := Memory.write nvErased 0x0D dhi (Memory.write nvErased 0x0C dlo (Memory.write nvErased 0x08 hhq [])) }

/-- The same block with this tick length. -/
def withTickLen (k : Nat) (s : State) : State := { s with config := { s.config with tickLen := k } }

/-- The block with a command word on the command port. -/
def given (w : Word) (s : State) : State := presentNext (.command w) s

/-- The block with a pulse on the tick port. -/
def pulsed (s : State) : State := presentNext .pulse s

/-- The block with these events still to come. -/
def facing (events : List Event) (s : State) : State := withInputs events s

/-- A next state's answer, the cell at `a`, and the log. -/
def store (a : Nat) (o : Host.Outcome State Fault Refusal) : Option (Option Word × Byte × List NvOp) :=
  match o with
  | .next t => some (t.response, nvRead a t, t.nvlog)
  | .fault _ => none
  | .refused _ => none

/-- A next state's answer and its counters. -/
def clock (o : Host.Outcome State Fault Refusal) : Option (Option Word × Nat × Nat × Nat) :=
  match o with
  | .next t => some (t.response, t.secondsLT.toNat, t.minutesLT.toNat, t.daysSinceEpoch.toNat)
  | .fault _ => none
  | .refused _ => none

/-- A next state's answer and the `n` bytes of the operand buffer from `off` on. -/
def buffer (off n : Nat) (o : Host.Outcome State Fault Refusal) : Option (Option Word × Bytes) :=
  match o with
  | .next t => some (t.response, obReadBytes off n t)
  | .fault _ => none
  | .refused _ => none

/-- The answer in the state a fault leaves, and whether that is the state before but for the answer and the word. -/
def faulted (s : State) : Option (Option Word × Bool) :=
  match step s with
  | .next _ => none
  | .fault r => some (r.after.response, decide ({ r.after with response := s.response, inputs := s.inputs } = s))
  | .refused _ => none

/-- A buffer set up for a GCM command, the lengths claimed. -/
def loaded (key iv aad text tag : Bytes) : State :=
  obWriteBytes 0x030 tag (obWriteBytes 0x200 text (obWriteBytes 0x100 aad (obWriteBytes 0x020 iv
    (obWriteBytes 0x010 key (obWrite 0x001 12#8 (obWrite 0x000 16#8 State.reset))))))

/-- Key and IV of zeros. -/
def loadedZero (aad text tag : Bytes) : State := loaded (zeroBytes 16) (zeroBytes 12) aad text tag

/-! ### WellFormed: each check refuses an ill-formed term (00_scope R7, 30_encoding R95, R100) -/

theorem test_wellFormed_accepts :
    [AsmLine.bsUpdate 0xFFFF 0xFF, .rtcSethm 255 255, .gcmEncrypt 0xF 255 255, .obFill 0xFFFF [0#8], .sethmA 23 59].all
      AsmLine.wellFormed = true := by decide

theorem test_wellFormed_refuses_address :
    [AsmLine.bsRead 0x10000, .bsUpdate 0x10000 0, .bsErase 0x10000, .bsClrbits 0x10000 0, .obWr 0x10000 0,
      .obRd 0x10000].any AsmLine.wellFormed = false := by decide

theorem test_wellFormed_refuses_byte :
    [AsmLine.bsUpdate 0 256, .bsClrbits 0 256, .rtcSethm 256 0, .rtcSethm 0 256, .obWr 0 256].any
      AsmLine.wellFormed = false := by decide

theorem test_wellFormed_refuses_gcm_fields :
    [AsmLine.gcmEncrypt 16 0 0, .gcmEncrypt 0 256 0, .gcmEncrypt 0 0 256, .gcmDecrypt 16 0 0, .gcmDecrypt 0 256 0,
      .gcmDecrypt 0 0 256].any AsmLine.wellFormed = false := by decide

theorem test_wellFormed_refuses_pseudo :
    [AsmLine.obFill 0xFFFF [0#8, 0#8], .sethmA 24 0, .sethmA 0 60].any AsmLine.wellFormed = false := by decide

theorem test_config_wf : Config.default.wf := by decide

theorem test_config_refused :
    [{ Config.default with tickLen := 3 }, { Config.default with nvSize := 0 },
      { Config.default with nvSize := 65537 }, { Config.default with nvPage := 1 },
      { Config.default with nvPage := 6 }, { Config.default with nvAddrHhq := 1024 },
      { Config.default with nvAddrDays := 1023 }, { Config.default with nvAddrDays := 14 },
      { Config.default with nvAddrHhq := 15 }, { Config.default with restoreBias := 15 }].any
      (fun c => decide c.wf) = false := by decide

/-! ### Decoding words written out from 30_encoding R81 to R88, R95 -/

theorem test_decode_bsRead : decode (.command 0x10000800#32) = .ok (.bsRead 0x0008#16) := by decide
theorem test_decode_bsUpdate : decode (.command 0x1100084E#32) = .ok (.bsUpdate 0x0008#16 0x4E#8) := by decide
theorem test_decode_bsErase : decode (.command 0x12000800#32) = .ok (.bsErase 0x0008#16) := by decide
theorem test_decode_bsClrbits : decode (.command 0x130008FC#32) = .ok (.bsClrbits 0x0008#16 0xFC#8) := by decide
theorem test_decode_rtcSethm : decode (.command 0x20000914#32) = .ok (.rtcSethm 9#8 20#8) := by decide
theorem test_decode_rtcPersist : decode (.command 0x21000000#32) = .ok .rtcPersist := by decide
theorem test_decode_rtcRestore : decode (.command 0x22000000#32) = .ok .rtcRestore := by decide
theorem test_decode_rtcGetsec : decode (.command 0x28000000#32) = .ok .rtcGetsec := by decide
theorem test_decode_rtcGetmsm : decode (.command 0x29000000#32) = .ok .rtcGetmsm := by decide
theorem test_decode_rtcGetdays : decode (.command 0x2A000000#32) = .ok .rtcGetdays := by decide
theorem test_decode_rtcGethours : decode (.command 0x2B000000#32) = .ok .rtcGethours := by decide
theorem test_decode_rtcGetmins : decode (.command 0x2C000000#32) = .ok .rtcGetmins := by decide
theorem test_decode_gcmEncrypt : decode (.command 0x30F01000#32) = .ok (.gcmEncrypt allPresent 16#8 0#8) := by decide
theorem test_decode_gcmDecrypt : decode (.command 0x31F01000#32) = .ok (.gcmDecrypt allPresent 16#8 0#8) := by decide
theorem test_decode_obWr : decode (.command 0x40000010#32) = .ok (.obWr 0x000#16 16#8) := by decide
theorem test_decode_obRd : decode (.command 0x41003000#32) = .ok (.obRd 0x030#16) := by decide
theorem test_decode_pulse : decode .pulse = .ok .rtcTick := by decide

/-- One flag at a time: `P_IN` is bit 23, `P_AAD` 22, `P_OUT` 21, `P_TAG` 20 (30_encoding R83). -/
theorem test_decode_present_flags :
    [0x30800000#32, 0x30400000#32, 0x30200000#32, 0x30100000#32].map (fun w => (decodeCommand w).toOption) =
      [some (.gcmEncrypt ⟨true, false, false, false⟩ 0#8 0#8), some (.gcmEncrypt ⟨false, true, false, false⟩ 0#8 0#8),
        some (.gcmEncrypt ⟨false, false, true, false⟩ 0#8 0#8),
        some (.gcmEncrypt ⟨false, false, false, true⟩ 0#8 0#8)] := by decide

/-- The illegal words of 95_test_vectors T36, T56, T63 to T68, and one reserved bit of each other zero field. -/
theorem test_decode_illegal :
    [0x20010914#32, 0x30F11000#32, 0x41000001#32, 0x00000000#32, 0xFFFFFFFF#32, 0x14000000#32, 0x21000001#32,
      0x10040001#32, 0x12000080#32, 0x22800000#32, 0x28000100#32, 0x31F80000#32, 0x20800000#32, 0x23000000#32].all
      (fun w => (decodeCommand w).toOption.isNone) = true := by decide

/-- The words of the opcode table as the host numbers them. -/
theorem test_decodeTableWord :
    [decodeTableWord 32 0x10000800, decodeTableWord 8 1, decodeTableWord 8 0, decodeTableWord 32 1] =
      [some (.bsRead 0x0008#16), some .rtcTick, none, none] := by decide

theorem test_withFetchWord_runs_word :
    store 0x10 (step ((withCell 0x10 0x4E#8).withFetchWord 32 0x10001000)) =
      some (some 0x0000004E#32, 0x4E#8, []) := by decide

theorem test_withFetchWord_runs_pulse : clock (step (State.reset.withFetchWord 8 1)) = some (none, 2, 0, 0) := by decide

/-! ### Lines of the spec's syntax (30_encoding R95, R100) -/

theorem test_assemble_line :
    assemble [.bsUpdate 0x0008 0x4E, .gcmEncrypt 0xF 16 0, .tick, .reset] =
      some [.port (.command 0x1100084E#32), .port (.command 0x30F01000#32), .port .pulse, .reset] := by decide

theorem test_assemble_tick_in_setter :
    assemble [.sethmA 9 14, .tick, .sethmB, .tick] =
      some [.port (.command 0x2000090E#32), .tickInCommand, .port .pulse] := by decide

theorem test_assemble_pseudo :
    assemble [.gcmSetup, .obFill 0x200 [0xAB#8, 0xCD#8], .tickTimes 2] =
      some [.port (.command 0x40000010#32), .port (.command 0x4000010C#32), .port (.command 0x400200AB#32),
        .port (.command 0x400201CD#32), .port .pulse, .port .pulse] := by decide

theorem test_assemble_refuses :
    [assemble [.bsRead 0x10000], assemble [.sethmB], assemble [.sethmA 9 14], assemble [.sethmA 9 14, .reset, .sethmB]] =
      [none, none, none, none] := by decide

/-! ### Byte store (95_test_vectors T1 to T20) -/

/-- T1 and T20. -/
theorem test_bsRead :
    store 0x10 (step (given 0x10001000#32 (withCell 0x10 0x4E#8))) = some (some 0x0000004E#32, 0x4E#8, []) ∧
    store 0x3FF (step (given 0x1003FF00#32 (withCell 0x3FF 0x12#8))) = some (some 0x00000012#32, 0x12#8, []) := by
  decide

/-- T18. -/
theorem test_bsRead_out_of_range :
    faulted (given 0x10040000#32 (withCell 0x10 0x4E#8)) = some (some 0x80000000#32, true) := by decide

/-- T2 to T6. -/
theorem test_bsUpdate :
    [store 0x10 (step (given 0x1100104F#32 (withCell 0x10 0xFF#8))),
      store 0x10 (step (given 0x1100104F#32 (withCell 0x10 0x4F#8))),
      store 0x10 (step (given 0x1100104C#32 (withCell 0x10 0x4E#8))),
      store 0x10 (step (given 0x11001057#32 (withCell 0x10 0x4C#8))),
      store 0x10 (step (given 0x110010FF#32 (withCell 0x10 0x4C#8)))] =
    [some (some 0x00010000#32, 0x4F#8, [.write 0x10 0x4F#8]), some (some 0x00000000#32, 0x4F#8, []),
      some (some 0x00010000#32, 0x4C#8, [.write 0x10 0x4C#8]),
      some (some 0x00010000#32, 0x57#8, [.eraseWrite 0x10 0x57#8]),
      some (some 0x00010000#32, 0xFF#8, [.erase 0x10])] := by decide

/-- T2, T6 and T19 with SPLIT_EW false. -/
theorem test_bsUpdate_degraded :
    store 0x10 (step (given 0x1100104F#32 (withSplitEw false (withCell 0x10 0xFF#8)))) =
      some (some 0x00010000#32, 0x4F#8, [.eraseWrite 0x10 0x4F#8]) ∧
    store 0x10 (step (given 0x110010FF#32 (withSplitEw false (withCell 0x10 0x4C#8)))) =
      some (some 0x00010000#32, 0xFF#8, [.eraseWrite 0x10 0xFF#8]) ∧
    faulted (given 0x11FFFF00#32 (withSplitEw false State.reset)) = some (some 0x80000000#32, true) := by decide

/-- T11 and T12. -/
theorem test_bsErase :
    store 0x10 (step (given 0x12001000#32 (withCell 0x10 0x00#8))) =
      some (some 0x00010000#32, 0xFF#8, [.erase 0x10]) ∧
    store 0x10 (step (given 0x12001000#32 State.reset)) = some (some 0x00000000#32, 0xFF#8, []) := by decide

/-- T13, T14 and T16. -/
theorem test_bsClrbits :
    store 0x10 (step (given 0x130010FE#32 (withCell 0x10 0x4F#8))) =
      some (some 0x00010000#32, 0x4E#8, [.write 0x10 0x4E#8]) ∧
    store 0x10 (step (given 0x130010F7#32 (withCell 0x10 0x57#8))) = some (some 0x00000000#32, 0x57#8, []) ∧
    store 0x10 (step (given 0x13001000#32 (withCell 0x10 0x57#8))) =
      some (some 0x00010000#32, 0x00#8, [.write 0x10 0x00#8]) := by decide

/-! ### Clock (95_test_vectors T21 to T46) -/

/-- T21 to T25 and T29, TICK_LEN 2. -/
theorem test_rtcTick :
    [(withClock 0 0 0), (withClock 56 10 0), (withClock 58 10 0), (withClock 58 1439 7), (withClock 58 1439 65535),
      (withClock 59 10 0)].map (fun s => clock (step (pulsed s))) =
    [some (none, 2, 0, 0), some (none, 58, 10, 0), some (none, 0, 11, 0), some (none, 0, 0, 8), some (none, 0, 0, 0),
      some (none, 0, 11, 0)] := by decide

/-- T26 to T28, TICK_LEN 1. -/
theorem test_rtcTick_one_second :
    [(withClock 58 10 0), (withClock 59 10 0), (withClock 59 1439 65534)].map
      (fun s => clock (step (pulsed (withTickLen 1 s)))) =
    [some (none, 59, 10, 0), some (none, 0, 11, 0), some (none, 0, 0, 65535)] := by decide

/-- The HH:quarter table of 95_test_vectors 3.3. -/
theorem test_hhqEncode :
    [0, 14, 15, 29, 30, 44, 45, 59, 60, 560, 570, 585, 600, 1380, 1439].map (fun m => hhqEncode (BitVec.ofNat 16 m)) =
    [0x07#8, 0x07#8, 0x06#8, 0x06#8, 0x04#8, 0x04#8, 0x00#8, 0x00#8, 0x0F#8, 0x4E#8, 0x4C#8, 0x48#8, 0x57#8, 0xBF#8,
      0xB8#8] := by decide

theorem test_hhqDecode :
    [0x07#8, 0x06#8, 0x04#8, 0x00#8, 0x0F#8, 0x4E#8, 0x57#8, 0xB8#8, 0xBF#8, 0xC0#8, 0xFF#8, 0x4D#8, 0x01#8, 0x02#8,
      0x03#8].map (hhqDecode 7) =
    [some 7, some 22, some 37, some 52, some 67, some 562, some 607, some 1432, some 1387, none, none, none, none, none,
      none] := by decide

/-- T32, step A: the minutes are set, the answer is still to come. -/
theorem test_rtcSethm_stepA :
    clock (step (given 0x20000914#32 State.reset)) = some (none, 0, 560, 0) ∧
    clock (step (given 0x20001800#32 (withClock 14 560 3))) = some (some 0x00000000#32, 14, 560, 3) ∧
    clock (step (given 0x2000003C#32 (withClock 14 560 3))) = some (some 0x00000000#32, 14, 560, 3) := by decide

/-- T32, step B: three writes, low day byte first. -/
theorem test_rtcSethm_stepB :
    store 0x08 (step { withClock 0 560 0 with activity := .setterStepB }) =
      some (some 0x00010000#32, 0x4E#8,
        [.write 0x08 0x4E#8, .write 0x0C 0x00#8, .write 0x0D 0x00#8]) := by decide

/-- T37 to T41. -/
theorem test_rtcPersist :
    [store 0x08 (step (given 0x21000000#32 (withStored 0 570 0 0x4E#8 0 0))),
      store 0x08 (step (given 0x21000000#32 (withStored 0 600 0 0x4C#8 0 0))),
      store 0x08 (step (given 0x21000000#32 (withStored 0 0 1 0xB8#8 0 0))),
      store 0x0D (step (given 0x21000000#32 (withStored 0 0 256 0x07#8 0xFF#8 0))),
      store 0x0C (step (given 0x21000000#32 (withStored 0 0 65535 0x07#8 0xFE#8 0xFF#8)))] =
    [some (some 0#32, 0x4C#8, [.write 0x08 0x4C#8]), some (some 0#32, 0x57#8, [.eraseWrite 0x08 0x57#8]),
      some (some 0#32, 0x07#8, [.eraseWrite 0x08 0x07#8, .eraseWrite 0x0C 0x01#8]),
      some (some 0#32, 0x01#8, [.write 0x0C 0x00#8, .eraseWrite 0x0D 0x01#8]),
      some (some 0#32, 0xFF#8, [.erase 0x0C])] := by decide

/-- T42 to T45. -/
theorem test_rtcRestore :
    [withStored 9 3 5 0x4E#8 0x34#8 0x12#8, withStored 9 3 5 0xFF#8 0xFF#8 0xFF#8, withStored 9 3 5 0x4D#8 0x02#8 0,
      withStored 9 3 5 0x57#8 0xFF#8 0xFF#8].map (fun s => clock (step (given 0x22000000#32 s))) =
    [some (some 0x00010000#32, 9, 562, 0x1234), some (some 0x00000000#32, 9, 3, 5), some (some 0x00000000#32, 9, 3, 2),
      some (some 0x00010000#32, 9, 607, 5)] := by decide

/-- T46, `RTC.GETSEC`. -/
theorem test_rtcGetsec :
    clock (step (given 0x28000000#32 (withClock 58 607 0x1234))) = some (some 0x0000003A#32, 58, 607, 0x1234) := by
  decide
/-- T46, `RTC.GETMSM`. -/
theorem test_rtcGetmsm :
    clock (step (given 0x29000000#32 (withClock 58 607 0x1234))) = some (some 0x0000025F#32, 58, 607, 0x1234) := by
  decide
/-- T46, `RTC.GETDAYS`. -/
theorem test_rtcGetdays :
    clock (step (given 0x2A000000#32 (withClock 58 607 0x1234))) = some (some 0x00001234#32, 58, 607, 0x1234) := by
  decide
/-- T46, `RTC.GETHOURS`. -/
theorem test_rtcGethours :
    clock (step (given 0x2B000000#32 (withClock 58 607 0x1234))) = some (some 0x0000000A#32, 58, 607, 0x1234) := by
  decide
/-- T46, `RTC.GETMINS`. -/
theorem test_rtcGetmins :
    clock (step (given 0x2C000000#32 (withClock 58 607 0x1234))) = some (some 0x00000007#32, 58, 607, 0x1234) := by
  decide

/-! ### Operand buffer, faults and reset (95_test_vectors T58 to T69) -/

/-- T59, T60 and T61. -/
theorem test_obWr :
    buffer 0x000 1 (step (given 0x40000010#32 State.reset)) = some (some 0#32, [0x10#8]) ∧
    buffer 0x3FF 1 (step (given 0x4003FFA5#32 State.reset)) = some (some 0#32, [0xA5#8]) ∧
    faulted (given 0x40040000#32 State.reset) = some (some 0x80000000#32, true) := by decide

/-- T58, T60 and T62. -/
theorem test_obRd :
    buffer 0 0 (step (given 0x41000000#32 State.reset)) = some (some 0#32, []) ∧
    buffer 0 0 (step (given 0x4103FF00#32 (obWrite 0x3FF 0xA5#8 State.reset))) = some (some 0x000000A5#32, []) ∧
    faulted (given 0x41FFFF00#32 State.reset) = some (some 0x80000000#32, true) := by decide

/-- T64, T67 and T68: the decoder decides before the address. -/
theorem test_illegal_words :
    [0x00000000#32, 0x21000001#32, 0x10040001#32].map (fun w => faulted (given w (withClock 4 5 6))) =
      List.replicate 3 (some (some 0x40000000#32, true)) := by decide

/-- T69. -/
theorem test_reset_event :
    clock (step (facing [.reset] { obWrite 0x3FF 0xA5#8 (withStored 9 3 5 0x4E#8 1 2) with response := some 0#32 })) =
      some (none, 0, 0, 0) ∧
    store 0x08 (step (facing [.reset] (withStored 9 3 5 0x4E#8 1 2))) = some (none, 0x4E#8, []) ∧
    buffer 0x3FF 1 (step (facing [.reset] (obWrite 0x3FF 0xA5#8 State.reset))) = some (none, [0x00#8]) := by decide

/-! ### Cipher reference values (95_test_vectors, sections 3.5 and the cipher reference values) -/

/-- 256 powers of two that add up to 2^256 - 1 are all different: the table is a permutation of the bytes. -/
theorem test_sbox_is_a_permutation :
    sboxRows.flatten.length = 256 ∧ (sboxRows.flatten.map fun b => 2 ^ b.toNat).sum = 2 ^ 256 - 1 := by decide +kernel

theorem test_aes :
    aesEncrypt (zeroBytes 16) (zeroBytes 16) = beBytes 16 0x66e94bd4ef8a2c3b884cfa59ca342b2e := by decide +kernel

theorem test_keyExpand :
    roundKey (keyExpand (beBytes 16 0x2b7e151628aed2a6abf7158809cf4f3c)) 10 =
      beBytes 16 0xd014f9a8c9ee2589e13f0cc8b6630ca6 := by decide +kernel

theorem test_gf128Mul :
    gf128Mul (beBytes 16 0x0388dace60b6a392f328c2b971b2fe78) (beBytes 16 0x66e94bd4ef8a2c3b884cfa59ca342b2e) =
      beBytes 16 0x5e2ec746917062882c85b0685353deb7 := by decide +kernel

theorem test_ghash :
    ghash (beBytes 16 0x66e94bd4ef8a2c3b884cfa59ca342b2e) [] (beBytes 16 0x0388dace60b6a392f328c2b971b2fe78) =
      beBytes 16 0xf38cbb1ad69223dcc3457ae5b6b0f885 := by decide +kernel

/-! ### GCM (95_test_vectors G2v, G3v, G5v, T54) -/

/-- G2v and T54: the tag lies at TAG; without `P_TAG` nothing is written. -/
theorem test_gcmEncrypt :
    buffer 0x030 16 (step (given 0x30F01000#32 (loadedZero [] [] []))) =
      some (some 0x00010000#32, beBytes 16 0xab6e47d42cec13bdf53a67b21257bddf) ∧
    buffer 0x030 16 (step (given 0x30E01000#32 (loadedZero [] [] []))) = some (some 0#32, zeroBytes 16) := by
  decide +kernel

/-- G5v: two blocks, the last short, with associated data; the byte after the text is not written. -/
theorem test_gcmEncrypt_blocks :
    buffer 0x300 18 (step (given 0x30F01103#32 (loadedZero [0x01#8, 0x02#8, 0x03#8] [] []))) =
      some (some 0x00010000#32, beBytes 16 0x0388dace60b6a392f328c2b971b2fe78 ++ [0xF7#8, 0x00#8]) ∧
    buffer 0x030 16 (step (given 0x30F01103#32 (loadedZero [0x01#8, 0x02#8, 0x03#8] [] []))) =
      some (some 0x00010000#32, beBytes 16 0xc9e1db8989bf8c8c85832177ce3c7e3d) := by decide +kernel

/-- The frame of G3v, decrypted: one byte of ciphertext 03 gives one byte of plaintext 00. -/
theorem test_gcmDecrypt :
    buffer 0x300 2 (step (given 0x31F00100#32 (obWrite 0x300 0xAA#8 (obWrite 0x301 0xBB#8
      (loadedZero [] [0x03#8] (beBytes 16 0x5bc76c6e04efc25ab6d301679e074c70)))))) =
      some (some 0x00010000#32, [0x00#8, 0xBB#8]) := by decide +kernel

/-- The frame of G3v with one bit of the ciphertext flipped: OUT keeps what it held. -/
theorem test_gcmDecrypt_tampered :
    buffer 0x300 2 (step (given 0x31F00100#32 (obWrite 0x300 0xAA#8
      (loadedZero [] [0x02#8] (beBytes 16 0x5bc76c6e04efc25ab6d301679e074c70))))) =
      some (some 0x00000000#32, [0xAA#8, 0x00#8]) := by decide +kernel

/-! ### Witnesses: states and operands that meet all hypotheses of an obligation together -/

/-- A state in the middle of the day between the setter's two steps. -/
def midSetter : State := { withClock 4 560 7 with activity := .setterStepB }

/-- The frame of G1v: no text, no associated data, its tag in TAG. -/
def frameEmpty : State := loadedZero [] [] (beBytes 16 0x58e2fccefa7e3061367f1d57a4e7455a)

/-- The frame of G3v: one byte of ciphertext, its tag in TAG. -/
def frameText : State := loadedZero [] [0x03#8] (beBytes 16 0x5bc76c6e04efc25ab6d301679e074c70)

/-- The frame of G4v: one byte of associated data, its tag in TAG. -/
def frameAad : State := loadedZero [0x00#8] [] (beBytes 16 0xbe70fdb0190bf22a98eba0195c4586e2)

/-- A buffer with one bit flipped. -/
def flip (o b : Nat) (s : State) : State := obWrite o (obRead o s ^^^ (1#8 <<< b)) s

theorem flip_flips (o b : Nat) (s : State) : bitFlipped o b s (flip o b s) := by
  intro p
  rw [flip, obRead_obWrite]
  by_cases h : o = p
  · subst h; simp
  · simp [h, Ne.symm h]

theorem witness_EncodeOfDecodeIsTheWord :
    decode (.command 0x40FFFFFF#32) = .ok (.obWr 0xFFFF#16 0xFF#8) ∧ decode .pulse = .ok .rtcTick := by decide

theorem witness_CommandWordsMatchOpcodeTable :
    decode (.command 0x31F0FFFF#32) = .ok (.gcmDecrypt allPresent 255#8 255#8) := by decide

theorem witness_StepRunsDecodedInstruction :
    (given 0x28000000#32 State.reset).activity = .idle ∧
    (given 0x28000000#32 State.reset).inputs = .port (.command 0x28000000#32) :: [] ∧
    decode (.command 0x28000000#32) = .ok .rtcGetsec := by decide

theorem witness_StepBetweenSetterSteps_tick :
    (facing [.tickInCommand, .reset] midSetter).inputs = .tickInCommand :: [.reset] := by decide

theorem witness_StepBetweenSetterSteps_other :
    (facing [.reset] midSetter).activity = .setterStepB ∧
    ∀ rest, (facing [.reset] midSetter).inputs ≠ .tickInCommand :: rest :=
  ⟨rfl, fun _ h => by simp [facing, withInputs] at h⟩

theorem witness_ResetEventRestoresVolatileState :
    ((facing [.reset] (withClock 4 560 7)).activity = .idle ∧
      (facing [.reset] (withClock 4 560 7)).inputs = .reset :: []) ∧
    (facing [.reset] midSetter).activity = .setterStepB ∧ (facing [.reset] midSetter).inputs = .reset :: [] := by
  decide

theorem witness_IdleBlockWaits : State.reset.activity = .idle ∧ State.reset.inputs = [] := by decide

theorem witness_IllegalWordFaultsAndChangesNothing :
    (given 0x10001001#32 State.reset).activity = .idle ∧
    (given 0x10001001#32 State.reset).inputs = .port (.command 0x10001001#32) :: [] ∧
    ∀ row ∈ opcodeTable, 0x10001001#32 &&& row.2 ≠ row.1 := by
  have h : (opcodeTable.all fun row => decide (0x10001001#32 &&& row.2 ≠ row.1)) = true := by decide
  exact ⟨rfl, rfl, fun row hr => of_decide_eq_true (List.all_eq_true.1 h row hr)⟩

theorem witness_AddressFaultExactlyOutOfRange_address :
    outOfRange (.bsRead 0x0400#16) State.reset ∧ outOfRange (.bsClrbits 0xFFFF#16 0#8) State.reset ∧
    outOfRange (.obWr 0x0400#16 0#8) State.reset ∧ ¬outOfRange (.obRd 0x03FF#16) State.reset ∧
    ¬outOfRange (.bsErase 0x03FF#16) State.reset := by unfold outOfRange; decide

theorem witness_AddressFaultExactlyOutOfRange_fault :
    exec (.obRd 0x0400#16) State.reset = .fault (.address (respond .address false 0#16 State.reset)) := by
  simp [exec, execObRd, obValid, obSize, raiseAddress]

theorem witness_FaultsArePrecise :
    step (given 0x00000000#32 State.reset) =
      .fault (.illegal (respond .illegal false 0#16 (withInputs [] (given 0x00000000#32 State.reset)))) := rfl

/-- The last cell of the default array, cell 0, and the last cell of the largest one. -/
theorem witness_address_below_size :
    (0x03FF#16).toNat < State.reset.config.nvSize ∧ (0x0000#16).toNat < State.reset.config.nvSize ∧
    (0xFFFF#16).toNat < { Config.default with nvSize := 65536 }.nvSize := by decide +kernel

/-- One old value and target for each case of the update: nothing, E, W, EW; with a next state in each. -/
theorem witness_BsUpdateOperationByCase :
    ∀ old ∈ [0x4C#8, 0xFF#8], ∀ v ∈ [0x4C#8, 0xFF#8, 0x40#8, 0x57#8],
      ∃ t, exec (.bsUpdate 0x0010#16 v) (withCell 0x10 old) = .next t :=
  fun old _ v _ => ⟨_, (if_pos (show (0x0010#16).toNat < 1024 by decide) :
    execBsUpdate 0x0010#16 v (withCell 0x10 old) = _)⟩

theorem witness_StoreCommandsAreIdempotent :
    ∃ t, exec (.bsClrbits 0x0010#16 0xFE#8) (withCell 0x10 0x4F#8) = .next t := ⟨_, rfl⟩

theorem witness_DegradedModeKeepsContract :
    ∃ t, exec (.bsErase 0x0010#16) (withSplitEw true (withCell 0x10 0x4F#8)) = .next t := ⟨_, rfl⟩

theorem witness_CellsChangeOnlyThroughLoggedOperations :
    (∃ t, stateAfter (step (given 0x1100104C#32 (withCell 0x10 0x4E#8))) = some t) ∧
    ∃ t, stateAfter (step (given 0x11FFFF00#32 (withCell 0x10 0x4E#8))) = some t := ⟨⟨_, rfl⟩, _, rfl⟩

theorem witness_OnlyStoreCommandsAndPersistChangeCells :
    mayChangeCells (.obWr 0x000#16 16#8) = false ∧ ∃ t, exec (.obWr 0x000#16 16#8) State.reset = .next t :=
  ⟨rfl, _, rfl⟩

theorem witness_EraseOnlyWhenBitMustRise :
    (withCell 0x10 0x4C#8).config.splitEw = true ∧
    (∃ t, exec (.bsUpdate 0x0010#16 0x57#8) (withCell 0x10 0x4C#8) = .next t ∧
      eraseCount 0x10 t.nvlog ≠ eraseCount 0x10 (withCell 0x10 0x4C#8).nvlog) ∧
    ∃ t, exec (.bsClrbits 0x0010#16 0xF3#8) (withCell 0x10 0x4C#8) = .next t :=
  ⟨rfl, ⟨_, rfl, by decide⟩, _, rfl⟩

/-- The three clauses at the values where they meet: 58 + 1 = 59 and 58 + 2 = 60; minute 1438 and minute 1439. -/
theorem witness_TickAdvancesClock :
    (withTickLen 1 (withClock 58 0 0)).secondsLT.toNat + (withTickLen 1 (withClock 58 0 0)).config.tickLen ≤ 59 ∧
    (59 < (withClock 58 1438 0).secondsLT.toNat + (withClock 58 1438 0).config.tickLen ∧
      (withClock 58 1438 0).minutesLT.toNat + 1 ≤ 1439) ∧
    (59 < (withClock 58 1439 0).secondsLT.toNat + (withClock 58 1439 0).config.tickLen ∧
      1439 < (withClock 58 1439 0).minutesLT.toNat + 1) := by decide

/-- Both tick lengths; minute 1439 for the minute clause; day 65535 for the day clause. -/
theorem witness_DayOfTicksAdvancesOneDay :
    (∃ s : State, s.config.tickLen = 1 ∧ s.activity = .idle ∧ s.secondsLT = 0#8 ∧ s.minutesLT.toNat ≤ 1439 ∧
      s.inputs = List.replicate (60 / s.config.tickLen) (.port .pulse) ++ [.reset]) ∧
    ∃ s : State, s.config.tickLen = 2 ∧ s.activity = .idle ∧ s.secondsLT = 0#8 ∧ s.minutesLT = 0#16 ∧
      s.inputs = List.replicate (86400 / s.config.tickLen) (.port .pulse) ++ [.reset] :=
  ⟨⟨facing (List.replicate (60 / 1) (.port .pulse) ++ [.reset]) (withTickLen 1 (withClock 0 1439 0)), rfl, rfl, rfl,
      by decide, rfl⟩,
    ⟨facing (List.replicate (86400 / 2) (.port .pulse) ++ [.reset]) (withTickLen 2 (withClock 0 0 65535)), rfl, rfl, rfl,
      rfl, rfl⟩⟩

/-- The first and the last valid time, and the first invalid hour and minute. -/
theorem witness_Sethm :
    ((0#8).toNat ≤ 23 ∧ (0#8).toNat ≤ 59) ∧ ((23#8).toNat ≤ 23 ∧ (59#8).toNat ≤ 59) ∧
    (23 < (24#8).toNat ∨ 59 < (0#8).toNat) ∧ (23 < (0#8).toNat ∨ 59 < (60#8).toNat) := by decide

theorem witness_SetterStepBPersistsAndAnswers :
    (facing [.port .pulse] midSetter).config.wf ∧ (facing [.port .pulse] midSetter).activity = .setterStepB ∧
    ∀ rest, (facing [.port .pulse] midSetter).inputs ≠ .tickInCommand :: rest :=
  ⟨by decide, rfl, fun _ h => by simp [facing, withInputs] at h⟩

theorem witness_SethmThenAccessorsGiveThatTime :
    ∃ s : State, (23#8).toNat ≤ 23 ∧ (59#8).toNat ≤ 59 ∧ s.activity = .idle ∧
      s.inputs = .port (encode (.rtcSethm 23#8 59#8)) :: .port (encode .rtcGethours) ::
        .port (encode .rtcGetmins) :: [.reset] :=
  ⟨facing [.port (encode (.rtcSethm 23#8 59#8)), .port (encode .rtcGethours), .port (encode .rtcGetmins), .reset]
    (withClock 14 0 0), by decide, by decide, rfl, rfl⟩

theorem witness_TickBetweenSetterStepsIsPersisted :
    (facing [.tickInCommand] midSetter).config.wf ∧ (facing [.tickInCommand] midSetter).activity = .setterStepB ∧
    (facing [.tickInCommand] midSetter).inputs = .tickInCommand :: [] ∧
    ∀ r : List Event, [] ≠ Event.tickInCommand :: r :=
  ⟨by decide, rfl, rfl, fun _ h => by simp at h⟩

/-- A legal configuration, the clauses of persist: minute 1439, and cells that hold the values already. -/
theorem witness_PersistStoresTime :
    State.reset.config.wf ∧ (withClock 58 1439 65535).minutesLT.toNat ≤ 1439 ∧
    (withStored 0 0 0 0x07#8 0 0).config.wf ∧ persist (withStored 0 0 0 0x07#8 0 0) = withStored 0 0 0 0x07#8 0 0 := by
  decide +kernel

theorem witness_PersistTwicePerformsNothing :
    State.reset.config.wf ∧ ∃ t u, exec .rtcPersist State.reset = .next t ∧ exec .rtcPersist t = .next u :=
  ⟨by decide, _, _, rfl, rfl⟩

/-- The four clauses of restore: the sentinel, another day, the lowest and the highest legal byte, no legal byte. -/
theorem witness_RestoreReadsStoredTime :
    storedDays (withStored 0 0 0 0x07#8 0xFF#8 0xFF#8) = 0xFFFF#16 ∧
    storedDays (withStored 0 0 0 0x07#8 0xFE#8 0xFF#8) ≠ 0xFFFF#16 ∧
    (0x00#8).toNat = 8 * 0 + [7, 6, 4, 0].getD 3 0 ∧ (0xBF#8).toNat = 8 * 23 + [7, 6, 4, 0].getD 0 0 ∧
    (∀ h ≤ 23, ∀ q ≤ 3, (0xC0#8).toNat ≠ 8 * h + [7, 6, 4, 0].getD q 0) ∧
    ∀ h ≤ 23, ∀ q ≤ 3, (0x01#8).toNat ≠ 8 * h + [7, 6, 4, 0].getD q 0 := by decide +kernel

theorem witness_PersistThenRestoreSameQuarter :
    (withClock 58 1439 65535).config.wf ∧ (withClock 58 1439 65535).minutesLT.toNat ≤ 1439 := by decide

/-- The hypotheses of PersistPathByHour on a state and the earlier minute. -/
abbrev persistPathHypotheses (s : State) (m : Half) : Prop :=
  s.config.wf ∧ s.config.splitEw = true ∧ s.minutesLT.toNat ≤ 1439 ∧ m.toNat ≤ 1439 ∧
  nvRead s.config.nvAddrHhq s = hhqEncode m

/-- The clauses of the persist path: the same quarter, the last minute of the hour, and the next hour, the day stored. -/
theorem witness_PersistPathByHour :
    persistPathHypotheses (withStored 0 569 7 0x4E#8 7 0) 560 ∧
    persistPathHypotheses (withStored 0 599 7 0x4E#8 7 0) 560 ∧
    persistPathHypotheses (withStored 0 600 7 0x4E#8 7 0) 560 ∧
    storedDays (withStored 0 600 7 0x4E#8 7 0) = (withStored 0 600 7 0x4E#8 7 0).daysSinceEpoch := by decide +kernel

/-- The hour change at midnight, first and last minute of both quarters, with the next day not stored yet. -/
theorem witness_PersistPathByHour_midnight :
    persistPathHypotheses (withStored 0 0 8 0xB8#8 7 0) 1439 ∧
    persistPathHypotheses (withStored 0 14 8 0xB8#8 7 0) 1425 ∧
    (1439#16).toNat / 15 = 95 ∧ (1425#16).toNat / 15 = 95 ∧ (14#16).toNat / 15 = 0 := by decide +kernel

theorem witness_PersistPathByHour_completes :
    (∃ t, exec .rtcPersist (withStored 0 600 7 0x4E#8 7 0) = .next t) ∧
    ∃ t, exec .rtcPersist (withStored 0 0 8 0xB8#8 7 0) = .next t := ⟨⟨_, rfl⟩, _, rfl⟩

/-- The premise of law 8: split erase and write, and an update that erases. -/
theorem witness_MutatorLaws :
    (withCell 0x10 0x4C#8).config.splitEw = true ∧
    ∃ b, eraseCount b (smartUpdate 0x10 0x57#8 (withCell 0x10 0x4C#8)).1.nvlog ≠
      eraseCount b (withCell 0x10 0x4C#8).nvlog := ⟨rfl, 0x10, by decide⟩

theorem witness_FreshArrayNeedsNoErase :
    State.reset.config.wf ∧ State.reset.config.splitEw = true ∧ nvRead 0x08 State.reset = 0xFF#8 ∧
    nvRead 0x0C State.reset = 0xFF#8 ∧ nvRead (0x0C + 1) State.reset = 0xFF#8 := by decide

theorem witness_LastDayIsNotRestored :
    (withClock 0 0 0xFFFF).config.wf ∧ (withClock 0 0 0xFFFF).daysSinceEpoch = 0xFFFF#16 ∧
    ∃ t u, exec .rtcPersist (withClock 0 0 0xFFFF) = .next t ∧ exec .rtcRestore (applyReset t) = .next u :=
  ⟨by decide, rfl, _, _, rfl, rfl⟩

theorem witness_offset_below_size : (0x000#16).toNat < 1024 ∧ (0x3FF#16).toNat < 1024 := by decide

theorem witness_EncryptWritesCiphertextAndTag : lengthsClaimed (loadedZero [] [] []) := by decide

/-- Each of the three ways to be invalid. -/
theorem witness_InvalidGcmOperandsTouchNothing :
    obRead 0x000 (obWrite 0x000 15#8 (loadedZero [] [] [])) ≠ 16#8 ∧
    obRead 0x001 (obWrite 0x001 16#8 (loadedZero [] [] [])) ≠ 12#8 ∧
    (⟨true, true, true, false⟩ : PresentFlags) ≠ allPresent := by decide

theorem witness_DecryptOnMatch_empty : authentic 0#8 0#8 frameEmpty := by decide +kernel
theorem witness_DecryptOnMatch_text : authentic 1#8 0#8 frameText := by decide +kernel
theorem witness_DecryptOnMatch_aad : authentic 0#8 1#8 frameAad := by decide +kernel

theorem witness_DecryptOnMismatchReleasesNothing :
    obReadBytes 0x030 16 (loadedZero [] [] []) ≠ bufferTag 0#8 (obReadBytes 0x200 0 (loadedZero [] [] []))
      (loadedZero [] [] []) := by decide +kernel

/-- A block after an encryption of 255 bytes with 255 bytes of associated data. -/
def encrypted : State :=
  respond .ok true 0#16 (obWriteBytes obTag (encryptedTag 255#8 255#8 (loadedZero [] [] []))
    (obWriteBytes obOut (encryptedText 255#8 (loadedZero [] [] [])) (loadedZero [] [] [])))

/-- The same block with OUT copied to IN. -/
def encryptedCopied : State := obWriteBytes 0x200 (obReadBytes 0x300 255 encrypted) encrypted

theorem witness_GcmRoundTrip :
    lengthsClaimed (loadedZero [] [] []) ∧
    exec (.gcmEncrypt allPresent 255#8 255#8) (loadedZero [] [] []) = .next encrypted ∧
    ∀ o, obRead o encryptedCopied =
      if 0x200 ≤ o ∧ o < 0x200 + (255#8).toNat then obRead (o + 0x100) encrypted else obRead o encrypted := by
  refine ⟨by decide, ?_, fun o => ?_⟩
  · rw [exec, execGcmEncrypt, if_pos (show gcmValidate allPresent (loadedZero [] [] []) = true by decide), complete,
      encrypted]
  · rw [encryptedCopied, obRead_obWriteBytes, obReadBytes_length]
    show _ = if 0x200 ≤ o ∧ o < 0x200 + 255 then _ else _
    by_cases h : 0x200 ≤ o ∧ o < 0x200 + 255
    · rw [if_pos h, if_pos h, obReadBytes_getD _ _ _ _ (by omega), show 0x300 + (o - 0x200) = o + 0x100 by omega]
    · rw [if_neg h, if_neg h]

/-- The first and the last bit of TAG. -/
theorem witness_FlippedTagBitIsRejected :
    authentic 0#8 0#8 frameEmpty ∧ bitFlipped (0x030 + 0) 0 frameEmpty (flip 0x030 0 frameEmpty) ∧
    bitFlipped (0x030 + 15) 7 frameEmpty (flip 0x03F 7 frameEmpty) :=
  ⟨witness_DecryptOnMatch_empty, flip_flips _ _ _, flip_flips _ _ _⟩

/-- A bit of the text and a bit of the associated data, under a key whose hash subkey is not zero. -/
theorem witness_FlippedDataBitIsRejected :
    (authentic 1#8 0#8 frameText ∧ aesEncrypt (obReadBytes 0x010 16 frameText) (List.replicate 16 0#8) ≠
      List.replicate 16 0#8 ∧ 0 < (1#8).toNat ∧ bitFlipped (0x200 + 0) 7 frameText (flip 0x200 7 frameText)) ∧
    authentic 0#8 1#8 frameAad ∧ aesEncrypt (obReadBytes 0x010 16 frameAad) (List.replicate 16 0#8) ≠
      List.replicate 16 0#8 ∧ 0 < (1#8).toNat ∧ bitFlipped (0x100 + 0) 0 frameAad (flip 0x100 0 frameAad) :=
  ⟨⟨witness_DecryptOnMatch_text, by decide +kernel, by decide, flip_flips _ _ _⟩,
    witness_DecryptOnMatch_aad, by decide +kernel, by decide, flip_flips _ _ _⟩

/-- A block with the buffer of `loadedZero [] [] []` and other counters, cells and log. -/
def elsewhere : State := { loadedZero [] [] [] with minutesLT := 9, nv := [(1, 2#8)], nvlog := [.write 1 2#8] }

theorem witness_GcmDependsOnBufferOnly :
    (∀ o, obRead o (loadedZero [] [] []) = obRead o elsewhere) ∧
    (∃ t, exec (.gcmEncrypt allPresent 0#8 0#8) (loadedZero [] [] []) = .next t) ∧
    ∃ t, exec (.gcmEncrypt allPresent 0#8 0#8) elsewhere = .next t :=
  ⟨fun _ => rfl,
    ⟨_, (if_pos (show gcmValidate allPresent (loadedZero [] [] []) = true by decide) :
      execGcmEncrypt allPresent 0#8 0#8 (loadedZero [] [] []) = _)⟩,
    ⟨_, (if_pos (show gcmValidate allPresent elsewhere = true by decide) :
      execGcmEncrypt allPresent 0#8 0#8 elsewhere = _)⟩⟩

theorem witness_AesIsInjectiveOnBlocks :
    ∃ key x y : Bytes, key.length = 16 ∧ x.length = 16 ∧ y.length = 16 ∧ aesEncrypt key x = aesEncrypt key y :=
  ⟨zeroBytes 16, zeroBytes 16, zeroBytes 16, by decide, by decide, by decide, rfl⟩

theorem witness_GfMulIsCommutativeWithIdentity :
    (List.replicate 16 0xFF#8).length = 16 ∧ (0x80#8 :: List.replicate 15 0#8).length = 16 := by decide

theorem witness_CounterModeIsItsOwnInverse : (zeroBytes 16).length = 16 := by decide

theorem witness_StepKeepsInvariant :
    (withStored 58 1439 65535 0xB8#8 0xFE#8 0xFF#8).Inv ∧
    (∃ t, stateAfter (step (withStored 58 1439 65535 0xB8#8 0xFE#8 0xFF#8)) = some t) ∧
    midSetter.Inv ∧ ∃ t, stateAfter (step midSetter) = some t :=
  ⟨by decide, ⟨_, rfl⟩, by decide, _, rfl⟩

theorem witness_TickCommutesWithMemoryCommands :
    memoryOnly (.bsUpdate 0x0010#16 0x4C#8) = true ∧
    ∃ t, exec (.bsUpdate 0x0010#16 0x4C#8) (withClock 58 1439 65535) = .next t := ⟨rfl, _, rfl⟩

/-- A next state in which each counter has changed, by its writer. -/
theorem witness_CountersChangeOnlyByTheirWriters :
    (∃ t, exec .rtcTick State.reset = .next t ∧ t.secondsLT ≠ State.reset.secondsLT) ∧
    (∃ t, exec (.rtcSethm 9#8 20#8) State.reset = .next t ∧ t.minutesLT ≠ State.reset.minutesLT) ∧
    ∃ t, exec .rtcRestore (withStored 0 0 5 0x4D#8 2 0) = .next t ∧ t.daysSinceEpoch ≠ 5#16 :=
  ⟨⟨_, rfl, by decide⟩, ⟨_, rfl, by decide⟩, _, rfl, by decide⟩

theorem witness_OnlyBufferCommandsChangeBuffer :
    mayChangeBuffer .rtcPersist = false ∧ ∃ t, exec .rtcPersist State.reset = .next t := ⟨rfl, _, rfl⟩

theorem witness_ConfigurationNeverChanges : ∃ t, stateAfter (step (facing [.reset] midSetter)) = some t := ⟨_, rfl⟩

end Sys2Proof.Tests
end

/-! SUPPORT. What `exec` can do, said once: an inversion of every instruction's meaning (00_scope R16, 30_encoding R86),
from which both the safety and the invariant of a step are read off. -/

namespace Sys2Proof.Machine

/-- What a command that completes may make of the state before it answers: nothing, one mutator on a cell of the array
(40_bytestore R115 to R117), persist, restore, or byte strings written inside the operand buffer. -/
inductive CommandEffect (s : State) : State → Prop
  | unchanged : CommandEffect s s
  | mutated {a : Nat} {new : Byte} {op : NvOp} {r : State × Bool} (ha : a < s.config.nvSize)
      (h : Mutated a new op s r) : CommandEffect s r.1
  | persisted : CommandEffect s (persist s)
  | restored : CommandEffect s (restore s).1
  | bufferWritten {t : State} (off : Nat) (x : Bytes) (hlen : off + x.length ≤ obSize) (h : CommandEffect s t) :
      CommandEffect s (obWriteBytes off x t)

/-- The four ways `exec i s` can end: a tick, step A of an accepted `RTC.SETHM`, the fault ADDRESS, or a completed
command. -/
inductive ExecResult (i : Instr) (s : State) : Host.Outcome State Fault Refusal → Prop
  | ticked (hi : i = .rtcTick) : ExecResult i s (.next (tick s))
  | setterStarted {hours minutes : Byte} (hi : i = .rtcSethm hours minutes) (hh : hours.toNat ≤ 23)
      (hm : minutes.toNat ≤ 59) : ExecResult i s (.next (setterStepA hours minutes s))
  | addressFault (h : outOfRange i s) : ExecResult i s (raiseAddress s)
  | completed {flag : Bool} {value : Half} {t : State} (h : CommandEffect s t) :
      ExecResult i s (complete flag value t)

/-- A command that checks its address either completes or faults. -/
theorem ExecResult.checked {i : Instr} {s x : State} {c : Prop} [Decidable c] {flag : Bool} {value : Half}
    (hout : ¬c → outOfRange i s) (heff : c → CommandEffect s x) :
    ExecResult i s (if c then complete flag value x else raiseAddress s) := by
  split
  · next hc => exact .completed (heff hc)
  · next hc => exact .addressFault (hout hc)

/-- An accepted setter takes its step A and a rejected one completes (41_rtc R143, R144). -/
theorem execRtcSethm_result (hours minutes : Byte) (s : State) :
    ExecResult (.rtcSethm hours minutes) s (execRtcSethm hours minutes s) := by
  unfold execRtcSethm
  split
  · exact .completed .unchanged
  · exact .setterStarted rfl (by omega) (by omega)

/-- An encryption writes OUT and TAG, or nothing (43_gcm R210). -/
theorem execGcmEncrypt_result (p : PresentFlags) (n m : Byte) (s : State) :
    ExecResult (.gcmEncrypt p n m) s (execGcmEncrypt p n m s) := by
  have hn := n.isLt
  unfold execGcmEncrypt
  split
  · refine .completed (.bufferWritten _ _ ?_ (.bufferWritten _ _ ?_ .unchanged))
    · rw [encryptedTag_length]; decide
    · simp only [encryptedText_length, obOut, obSize]; omega
  · exact .completed .unchanged

/-- A decryption writes OUT, or nothing (43_gcm R215). -/
theorem execGcmDecrypt_result (p : PresentFlags) (n m : Byte) (s : State) :
    ExecResult (.gcmDecrypt p n m) s (execGcmDecrypt p n m s) := by
  have hn := n.isLt
  unfold execGcmDecrypt
  split
  · split
    · refine .completed (.bufferWritten _ _ ?_ .unchanged)
      simp only [decryptedText_length, obOut, obSize]; omega
    · exact .completed .unchanged
  · exact .completed .unchanged

/-- Every instruction ends in one of the four ways; the arms are those of the opcode table (30_encoding R86). -/
theorem exec_result (i : Instr) (s : State) : ExecResult i s (exec i s) := by
  cases i with
  | bsRead addr => exact .checked Nat.le_of_not_lt fun _ => .unchanged
  | bsUpdate addr value => exact .checked Nat.le_of_not_lt fun ha => .mutated ha (smartUpdate_spec _ _ s)
  | bsErase addr => exact .checked Nat.le_of_not_lt fun ha => .mutated ha (smartErase_spec _ s)
  | bsClrbits addr mask => exact .checked Nat.le_of_not_lt fun ha => .mutated ha (smartClearBits_spec _ _ s)
  | rtcSethm hours minutes => exact execRtcSethm_result hours minutes s
  | rtcPersist => exact .completed .persisted
  | rtcRestore => exact .completed .restored
  | rtcGetsec => exact .completed .unchanged
  | rtcGetmsm => exact .completed .unchanged
  | rtcGetdays => exact .completed .unchanged
  | rtcGethours => exact .completed .unchanged
  | rtcGetmins => exact .completed .unchanged
  | gcmEncrypt p n m => exact execGcmEncrypt_result p n m s
  | gcmDecrypt p n m => exact execGcmDecrypt_result p n m s
  | obWr off byte => exact .checked Nat.le_of_not_lt fun ho => .bufferWritten off.toNat [byte] ho .unchanged
  | obRd off => exact .checked Nat.le_of_not_lt fun _ => .unchanged
  | rtcTick => exact .ticked rfl

/-- No instruction is without a meaning. -/
theorem exec_ne_refused (i : Instr) (s : State) (r : Refusal) : exec i s ≠ .refused r := by
  intro h
  have hr := exec_result i s
  rw [h] at hr
  cases hr

end Sys2Proof.Machine

/-! SUPPORT. Which operations keep the invariant of the block (10_state R24, 20_memory R50, 30_encoding R84). -/

namespace Sys2Proof.Machine

/-- Putting a response word on the port of an idle block keeps the invariant. -/
theorem inv_respond {s : State} (status : Status) (flag : Bool) (value : Half) (hs : s.Inv) (ha : s.activity = .idle) :
    (respond status flag value s).Inv := by
  obtain ⟨hcfg, hmem, hclock, -⟩ := hs
  exact ⟨hcfg, hmem, hclock, by simp, by simp [ha]⟩

/-- The port is idle after the reset and after step B, and both leave the rest of the invariant alone. -/
theorem inv_idle {s : State} (hs : s.Inv) : State.Inv { s with activity := .idle } := by
  obtain ⟨hcfg, hmem, hclock, hresp, -⟩ := hs
  exact ⟨hcfg, hmem, hclock, hresp, nofun⟩

/-- A tick keeps the counters in their ranges, and the seconds even when ticks are two seconds long (41_rtc R140). -/
theorem tick_clockInRange {s : State} (hs : s.clockInRange) : (tick s).clockInRange := by
  obtain ⟨hsec, hmin, heven⟩ := hs
  rcases tick_cases s with ⟨hlt, h⟩ | ⟨-, hlt, h⟩ | ⟨-, -, h⟩ <;> rw [h]
  · have hval : (BitVec.ofNat 8 (s.secondsLT.toNat + s.config.tickLen)).toNat = s.secondsLT.toNat + s.config.tickLen :=
      Nat.mod_eq_of_lt (by omega)
    refine ⟨hval.trans_le hlt, hmin, fun (h2 : s.config.tickLen = 2) => ?_⟩
    have := heven h2
    rw [hval]
    omega
  · have hval : (BitVec.ofNat 16 (s.minutesLT.toNat + 1)).toNat = s.minutesLT.toNat + 1 :=
      Nat.mod_eq_of_lt (by omega)
    exact ⟨Nat.zero_le _, hval.trans_le hlt, fun _ => rfl⟩
  · exact ⟨Nat.zero_le _, Nat.zero_le _, fun _ => rfl⟩

/-- A tick keeps the invariant, between the setter's steps too. -/
theorem inv_tick {s : State} (hs : s.Inv) : (tick s).Inv := by
  obtain ⟨hcfg, hmem, hclock, hports⟩ := hs
  refine ⟨by simpa using hcfg, ?_, tick_clockInRange hclock, ?_⟩
  · simpa only [State.memoriesCanonical, tick_config, tick_nv, tick_ob] using hmem
  · simpa only [State.portsConsistent, tick_response, tick_activity] using hports

/-- The reset event keeps the invariant: the cells stay and all volatile state is 0 (70_reset R280). -/
theorem inv_applyReset {s : State} (hs : s.Inv) : (applyReset s).Inv := by
  obtain ⟨hcfg, ⟨hnv, -⟩, -, -⟩ := hs
  exact ⟨hcfg, ⟨hnv, Memory.wf_nil _, Memory.within_nil _⟩, ⟨Nat.zero_le _, Nat.zero_le _, fun _ => rfl⟩, rfl,
    fun _ => rfl⟩

/-- The minutes an accepted setter stores are 60*hours + minutes (41_rtc R143). -/
theorem setterStepA_minutesLT_toNat {hours minutes : Byte} (s : State) (hh : hours.toNat ≤ 23)
    (hm : minutes.toNat ≤ 59) :
    (setterStepA hours minutes s).minutesLT.toNat = 60 * hours.toNat + minutes.toNat := by
  rw [setterStepA_minutesLT]
  exact Nat.mod_eq_of_lt (by omega)

/-- Step A of an accepted setter keeps the invariant: no response is left pending (41_rtc R145). -/
theorem inv_setterStepA {hours minutes : Byte} {s : State} (hs : s.Inv) (hh : hours.toNat ≤ 23)
    (hm : minutes.toNat ≤ 59) : (setterStepA hours minutes s).Inv := by
  obtain ⟨hcfg, hmem, ⟨hsec, -, heven⟩, -⟩ := hs
  have hmin := setterStepA_minutesLT_toNat s hh hm
  exact ⟨hcfg, hmem, ⟨hsec, by omega, heven⟩, rfl, fun _ => rfl⟩

/-- What changes the cell array only keeps the invariant if the array stays canonical and inside its space. -/
theorem OnlyNv.inv {s t : State} (h : OnlyNv s t) (hs : s.Inv)
    (hnv : Memory.wf nvErased t.nv ∧ Memory.within s.config.nvSize t.nv) : t.Inv := by
  obtain ⟨hcfg, ⟨-, hob⟩, hclock, hports⟩ := hs
  rw [h]
  exact ⟨hcfg, ⟨hnv, hob⟩, hclock, hports⟩

/-- Persist keeps the invariant (41_rtc R147). -/
theorem inv_persist {s : State} (hs : s.Inv) : (persist s).Inv := by
  obtain ⟨hcfg, ⟨hnv, -⟩, -, -⟩ := id hs
  exact (persist_onlyNv s).inv hs (persist_canonical s hcfg hnv)

/-- Restore keeps the invariant: the latest minute it can give is 23:45 plus a bias of 14 (41_rtc R149, R150). -/
theorem inv_restore {s : State} (hs : s.Inv) : (restore s).1.Inv := by
  obtain ⟨hcfg, hmem, ⟨hsec, hmin, heven⟩, hports⟩ := hs
  obtain ⟨-, -, -, -, -, -, -, hbias⟩ := id hcfg
  rw [restore_eq]
  refine ⟨hcfg, hmem, ⟨hsec, ?_, heven⟩, hports⟩
  cases hd : hhqDecode s.config.restoreBias (nvRead s.config.nvAddrHhq s) with
  | none => exact hmin
  | some r =>
    have hr := hhqDecode_le hd
    exact (Nat.mod_eq_of_lt (by omega : r < 2 ^ 16)).trans_le (by omega)

/-- A byte string written inside the operand buffer keeps the invariant. -/
theorem inv_obWriteBytes {off : Nat} {x : Bytes} {s : State} (hs : s.Inv) (hlen : off + x.length ≤ obSize) :
    (obWriteBytes off x s).Inv := by
  obtain ⟨hcfg, ⟨hnv, hob⟩, hclock, hports⟩ := hs
  have hob' := obWriteBytes_canonical off x s hlen hob
  rw [obWriteBytes_eq]
  exact ⟨hcfg, ⟨hnv, hob'⟩, hclock, hports⟩

/-- The effect of a command leaves the port as it was. -/
theorem CommandEffect.activity {s t : State} (h : CommandEffect s t) : t.activity = s.activity := by
  induction h with
  | unchanged => rfl
  | mutated _ h => exact h.onlyNv.activity
  | persisted => exact (persist_onlyNv s).activity
  | restored => rw [restore_eq]
  | bufferWritten off x _ _ ih => rw [obWriteBytes_activity, ih]

/-- The effect of a command keeps the invariant. -/
theorem CommandEffect.inv {s t : State} (h : CommandEffect s t) (hs : s.Inv) : t.Inv := by
  induction h with
  | unchanged => exact hs
  | mutated ha h =>
    obtain ⟨-, ⟨⟨hwf, hwithin⟩, -⟩, -, -⟩ := id hs
    exact h.onlyNv.inv hs ⟨h.canonical hwf, h.within _ ha hwithin⟩
  | persisted => exact inv_persist hs
  | restored => exact inv_restore hs
  | bufferWritten off x hlen _ ih => exact inv_obWriteBytes ih hlen

/-- An instruction run by an idle block keeps the invariant, also when it faults. -/
theorem ExecResult.inv {i : Instr} {s t : State} {o : Host.Outcome State Fault Refusal} (h : ExecResult i s o)
    (hs : s.Inv) (ha : s.activity = .idle) (ht : stateAfter o = some t) : t.Inv := by
  cases h with
  | ticked => exact Option.some.inj ht ▸ inv_tick hs
  | setterStarted _ hh hm => exact Option.some.inj ht ▸ inv_setterStepA hs hh hm
  | addressFault => exact Option.some.inj ht ▸ inv_respond _ _ _ hs ha
  | completed h => exact Option.some.inj ht ▸ inv_respond _ _ _ (h.inv hs) (h.activity.trans ha)

/-! ### The statements -/

/-- Settles O53: each of the six kinds of step keeps the invariant. -/
theorem stepKeepsInvariant : Obligations.StepKeepsInvariant := by
  intro s t hs ht
  rcases step_cases s with ⟨-, -, hwait⟩ | ⟨p, rest, i, ha, -, -, hrun⟩ | ⟨p, rest, e, ha, -, -, hillegal⟩ |
    ⟨rest, -, htick⟩ | ⟨rest, -, -, hreset⟩ | ⟨-, hstepB⟩
  · rw [hwait] at ht
    exact Option.some.inj ht ▸ hs
  · rw [hrun] at ht
    exact (exec_result i (withInputs rest s)).inv hs ha ht
  · rw [hillegal] at ht
    exact Option.some.inj ht ▸ inv_respond (s := withInputs rest s) _ _ _ hs ha
  · rw [htick] at ht
    exact Option.some.inj ht ▸ inv_tick (s := withInputs rest s) hs
  · rw [hreset] at ht
    exact Option.some.inj ht ▸ inv_applyReset (s := withInputs rest s) hs
  · rw [hstepB] at ht
    exact Option.some.inj ht ▸ inv_respond _ _ _ (inv_persist (inv_idle hs)) (persist_onlyNv _).activity

/-- Settles O12: no instruction is refused, and every other kind of step answers a next state or a fault outright. -/
theorem noStepIsRefused : Obligations.NoStepIsRefused := by
  intro s r hr
  rcases step_cases s with ⟨-, -, hwait⟩ | ⟨p, rest, i, -, -, -, hrun⟩ | ⟨p, rest, e, -, -, -, hillegal⟩ |
    ⟨rest, -, htick⟩ | ⟨rest, -, -, hreset⟩ | ⟨-, hstepB⟩
  · exact nomatch hwait.symm.trans hr
  · exact exec_ne_refused i _ r (hrun.symm.trans hr)
  · exact nomatch hillegal.symm.trans hr
  · exact nomatch htick.symm.trans hr
  · exact nomatch hreset.symm.trans hr
  · exact nomatch hstepB.symm.trans hr

/-- An accepted `RTC.SETHM` is its step A (41_rtc R143). -/
theorem exec_rtcSethm_accepted {hours minutes : Byte} (s : State) (hh : hours.toNat ≤ 23) (hm : minutes.toNat ≤ 59) :
    exec (.rtcSethm hours minutes) s = .next (setterStepA hours minutes s) :=
  if_neg (by omega)

/-- Settles O27: the accepted setter is its step A, which touches `minutesLT` and the port only. -/
theorem sethmStoresMinutes : Obligations.SethmStoresMinutes := by
  intro hours minutes s hh hm
  refine ⟨_, exec_rtcSethm_accepted s hh hm, setterStepA_minutesLT_toNat s hh hm, ?_⟩
  simp [nvFrame, obFrame]

/-- Settles O6: taking an event that decodes to `i` is `exec i`. -/
theorem stepRunsDecodedInstruction : Obligations.StepRunsDecodedInstruction := by
  intro s p rest i ha hi hd
  rw [step_port s p rest ha hi, portAction_ok hd]
  rfl

/-- Settles O7: by the two rules for a step inside a command, and because persist leaves the port and the events. -/
theorem stepBetweenSetterSteps : Obligations.StepBetweenSetterSteps := by
  refine ⟨step_tickInCommand, fun s ha hi => ⟨_, step_setter s ha hi, ?_, rfl, ?_⟩⟩
  · exact (persist_onlyNv { s with activity := .idle }).activity
  · exact (persist_onlyNv { s with activity := .idle }).inputs

/-- Settles O9: the waiting step writes back the empty event list the block already has. -/
theorem idleBlockWaits : Obligations.IdleBlockWaits := by
  intro s ha hi
  rw [step_wait s ha hi, ← hi]
  rfl

/-- Settles O54: empty memories are canonical, and the counters and the configuration are in their ranges. -/
theorem resetStateMeetsInvariant : Obligations.ResetStateMeetsInvariant :=
  ⟨⟨by decide, ⟨⟨Memory.wf_nil _, Memory.within_nil _⟩, Memory.wf_nil _, Memory.within_nil _⟩,
    ⟨Nat.zero_le _, Nat.zero_le _, fun _ => rfl⟩, rfl, nofun⟩, rfl⟩

end Sys2Proof.Machine


/-! SUPPORT. What each instruction may change when it completes (10_state R23, R25, R28, 20_memory R50, R60): the
inversion of `exec` that keeps the instruction, from which the frames are read off. -/

namespace Sys2Proof.Machine

/-! ### Which instruction changes what -/

/-- A state differs from another in the operand buffer only. -/
def OnlyOb (s t : State) : Prop := t = { s with ob := t.ob }

theorem OnlyOb.obWriteBytes (off : Nat) (x : Bytes) (s : State) : OnlyOb s (obWriteBytes off x s) :=
  obWriteBytes_eq off x s

theorem OnlyOb.trans {s t u : State} (h : OnlyOb s t) (h' : OnlyOb t u) : OnlyOb s u := by
  unfold OnlyOb at h h' ⊢
  rw [h']; rw [h]

/-- The state in which an instruction completes, by what it may have changed before its answer: a tick the counters
(41_rtc R140), step A of the setter `minutesLT` (R143), restore the minutes and the day (R150), the byte store commands
and persist cells and log (10_state R25), `OB.WR` and the GCM commands the operand buffer (R28), all others nothing. -/
inductive Completion (i : Instr) (s : State) : State → Prop
  | ticked (hi : i = .rtcTick) : Completion i s (tick s)
  | setterStarted {hours minutes : Byte} (hi : i = .rtcSethm hours minutes) :
      Completion i s (setterStepA hours minutes s)
  | restored {flag : Bool} {value : Half} (hi : i = .rtcRestore) :
      Completion i s (respond .ok flag value (restore s).1)
  | cellsChanged {flag : Bool} {value : Half} {t : State} (hi : mayChangeCells i = true) (h : OnlyNv s t) :
      Completion i s (respond .ok flag value t)
  | bufferChanged {flag : Bool} {value : Half} {t : State} (hi : mayChangeBuffer i = true) (h : OnlyOb s t) :
      Completion i s (respond .ok flag value t)
  | onlyAnswered {flag : Bool} {value : Half} : Completion i s (respond .ok flag value s)

/-- A command that runs to completion ends in the state it answers from, with the response. -/
theorem Completion.of_complete {i : Instr} {s t x : State} {flag : Bool} {value : Half}
    (ht : complete flag value x = .next t) (hx : Completion i s (respond .ok flag value x)) : Completion i s t :=
  Host.Outcome.next.inj ht ▸ hx

/-- So does a command that checks its address, if it does not fault. -/
theorem Completion.of_checked {i : Instr} {s t x : State} {c : Prop} [Decidable c] {flag : Bool} {value : Half}
    (ht : (if c then complete flag value x else raiseAddress s) = .next t)
    (hx : Completion i s (respond .ok flag value x)) : Completion i s t :=
  (checked_next.1 ht).2 ▸ hx

/-- A rejected setter only answers; an accepted one takes its step A (41_rtc R143, R144). -/
theorem execRtcSethm_completion {hours minutes : Byte} {s t : State} (ht : execRtcSethm hours minutes s = .next t) :
    Completion (.rtcSethm hours minutes) s t := by
  unfold execRtcSethm at ht
  split at ht
  · exact .of_complete ht .onlyAnswered
  · exact Host.Outcome.next.inj ht ▸ .setterStarted rfl

/-- An encryption changes the operand buffer, or nothing when validation fails (43_gcm R210). -/
theorem execGcmEncrypt_completion {p : PresentFlags} {n m : Byte} {s t : State}
    (ht : execGcmEncrypt p n m s = .next t) : Completion (.gcmEncrypt p n m) s t := by
  unfold execGcmEncrypt at ht
  split at ht
  · exact .of_complete ht (.bufferChanged rfl (.trans (.obWriteBytes ..) (.obWriteBytes ..)))
  · exact .of_complete ht .onlyAnswered

/-- A decryption changes the operand buffer, or nothing when validation or the tag fails (43_gcm R215). -/
theorem execGcmDecrypt_completion {p : PresentFlags} {n m : Byte} {s t : State}
    (ht : execGcmDecrypt p n m s = .next t) : Completion (.gcmDecrypt p n m) s t := by
  unfold execGcmDecrypt at ht
  split at ht
  · split at ht
    · exact .of_complete ht (.bufferChanged rfl (.obWriteBytes ..))
    · exact .of_complete ht .onlyAnswered
  · exact .of_complete ht .onlyAnswered

/-- Every instruction that completes does so in one of these states; the arms are those of the opcode table
(30_encoding R86). -/
theorem exec_completion {i : Instr} {s t : State} (ht : exec i s = .next t) : Completion i s t := by
  cases i with
  | bsRead addr => exact .of_checked ht .onlyAnswered
  | bsUpdate addr value => exact .of_checked ht (.cellsChanged rfl (smartUpdate_spec _ _ s).onlyNv)
  | bsErase addr => exact .of_checked ht (.cellsChanged rfl (smartErase_spec _ s).onlyNv)
  | bsClrbits addr mask => exact .of_checked ht (.cellsChanged rfl (smartClearBits_spec _ _ s).onlyNv)
  | rtcSethm hours minutes => exact execRtcSethm_completion ht
  | rtcPersist => exact .of_complete ht (.cellsChanged rfl (persist_onlyNv s))
  | rtcRestore => exact .of_complete ht (.restored rfl)
  | rtcGetsec => exact .of_complete ht .onlyAnswered
  | rtcGetmsm => exact .of_complete ht .onlyAnswered
  | rtcGetdays => exact .of_complete ht .onlyAnswered
  | rtcGethours => exact .of_complete ht .onlyAnswered
  | rtcGetmins => exact .of_complete ht .onlyAnswered
  | gcmEncrypt p n m => exact execGcmEncrypt_completion ht
  | gcmDecrypt p n m => exact execGcmDecrypt_completion ht
  | obWr off byte => exact .of_checked ht (.bufferChanged rfl rfl)
  | obRd off => exact .of_checked ht .onlyAnswered
  | rtcTick => exact Host.Outcome.next.inj ht ▸ .ticked rfl

/-- Where the counters are kept, anything follows from a counter that differs. -/
theorem no_counter_differs {s t : State} {p q r : Prop} (h : clockFrame s t) :
    (t.secondsLT ≠ s.secondsLT → p) ∧ (t.minutesLT ≠ s.minutesLT → q) ∧
      (t.daysSinceEpoch ≠ s.daysSinceEpoch → r) := by
  obtain ⟨hsec, hmin, hday⟩ := h
  exact ⟨fun hne => absurd hsec hne, fun hne => absurd hmin hne, fun hne => absurd hday hne⟩

/-! ### What one step leaves behind -/

/-- The state a step leaves, a fault included, from the state with the taken event removed: the block waited, ticked, was
reset, took step A of the setter, answered a command or a fault, or took step B of the setter (00_scope R16). -/
inductive StepEffect (s : State) : State → Prop
  | waited : StepEffect s s
  | ticked : StepEffect s (tick s)
  | wasReset : StepEffect s (applyReset s)
  | setterStarted (hours minutes : Byte) : StepEffect s (setterStepA hours minutes s)
  | responded (status : Status) (flag : Bool) (value : Half) {t : State} (h : CommandEffect s t) :
      StepEffect s (respond status flag value t)
  | setterFinished : StepEffect s (respond .ok true 0#16 (persist { s with activity := .idle }))

theorem ExecResult.stepEffect {i : Instr} {s t : State} {o : Host.Outcome State Fault Refusal} (h : ExecResult i s o)
    (ht : stateAfter o = some t) : StepEffect s t := by
  cases h with
  | ticked => exact Option.some.inj ht ▸ .ticked
  | setterStarted => exact Option.some.inj ht ▸ .setterStarted _ _
  | addressFault => exact Option.some.inj ht ▸ .responded .address false 0#16 .unchanged
  | completed h => exact Option.some.inj ht ▸ .responded .ok _ _ h

/-- Every step has one of these effects on the state with the events it leaves. -/
theorem step_stepEffect {s t : State} (ht : stateAfter (step s) = some t) :
    ∃ rest, StepEffect (withInputs rest s) t := by
  rcases step_cases s with ⟨-, -, hwait⟩ | ⟨p, rest, i, -, -, -, hrun⟩ | ⟨p, rest, e, -, -, -, hillegal⟩ |
    ⟨rest, -, htick⟩ | ⟨rest, -, -, hreset⟩ | ⟨-, hstepB⟩
  · rw [hwait] at ht
    exact ⟨[], Option.some.inj ht ▸ .waited⟩
  · rw [hrun] at ht
    exact ⟨rest, (exec_result i _).stepEffect ht⟩
  · rw [hillegal] at ht
    exact ⟨rest, Option.some.inj ht ▸ .responded .illegal false 0#16 .unchanged⟩
  · rw [htick] at ht
    exact ⟨rest, Option.some.inj ht ▸ .ticked⟩
  · rw [hreset] at ht
    exact ⟨rest, Option.some.inj ht ▸ .wasReset⟩
  · rw [hstepB] at ht
    exact ⟨s.inputs, Option.some.inj ht ▸ .setterFinished⟩

/-! ### The log explains the cells -/

/-- The log of `t` is that of `s` with entries added, and these entries make of every cell of `s` what it is in `t`. -/
def LoggedChange (s t : State) : Prop :=
  ∃ ops, t.nvlog = s.nvlog ++ ops ∧ ∀ a, nvRead a t = replayNvlog ops a (nvRead a s)

/-- Nothing logged explains that no cell changed. -/
theorem LoggedChange.of_eq {s t : State} (hnv : t.nv = s.nv) (hlog : t.nvlog = s.nvlog) : LoggedChange s t :=
  ⟨[], by simp [hlog], fun a => by simp [nvRead, hnv]⟩

theorem CommandEffect.loggedChange {s t : State} (h : CommandEffect s t) : LoggedChange s t := by
  induction h with
  | unchanged => exact .of_eq rfl rfl
  | mutated _ h => exact h.replay
  | persisted => exact persist_replay s
  | restored => rw [restore_eq]; exact .of_eq rfl rfl
  | bufferWritten off x _ _ ih => simpa only [LoggedChange, obWriteBytes_nvlog, nvRead_obWriteBytes] using ih

theorem StepEffect.loggedChange {s t : State} (h : StepEffect s t) : LoggedChange s t := by
  cases h with
  | waited => exact .of_eq rfl rfl
  | ticked => exact .of_eq (tick_nv s) (tick_nvlog s)
  | wasReset => exact .of_eq rfl rfl
  | setterStarted => exact .of_eq rfl rfl
  | responded _ _ _ h => exact h.loggedChange
  | setterFinished => exact persist_replay { s with activity := .idle }

/-! ### The configuration -/

theorem CommandEffect.config {s t : State} (h : CommandEffect s t) : t.config = s.config := by
  induction h with
  | unchanged => rfl
  | mutated _ h => exact h.onlyNv.config
  | persisted => exact (persist_onlyNv s).config
  | restored => rw [restore_eq]
  | bufferWritten off x _ _ ih => rw [obWriteBytes_config, ih]

theorem StepEffect.config {s t : State} (h : StepEffect s t) : t.config = s.config := by
  cases h with
  | waited => rfl
  | ticked => exact tick_config s
  | wasReset => rfl
  | setterStarted => rfl
  | responded _ _ _ h => exact h.config
  | setterFinished => exact (persist_onlyNv { s with activity := .idle }).config

/-! ### What a GCM command reads of the buffer -/

section SameBuffer

variable {s t : State} (h : obFrame s t)
include h

theorem obReadBytes_of_obFrame (off n : Nat) : obReadBytes off n t = obReadBytes off n s :=
  obReadBytes_congr fun i _ => h (off + i)

theorem gcmValidate_of_obFrame (p : PresentFlags) : gcmValidate p t = gcmValidate p s := by
  simp only [gcmValidate, h obKeyLen, h obIvLen]

theorem encryptedText_of_obFrame (n : Byte) : encryptedText n t = encryptedText n s := by
  simp only [encryptedText, gcmKey, gcmIv, gcmText, obReadBytes_of_obFrame h]

theorem encryptedTag_of_obFrame (n m : Byte) : encryptedTag n m t = encryptedTag n m s := by
  simp only [encryptedTag, encryptedText_of_obFrame h, gcmKey, gcmIv, gcmAad, obReadBytes_of_obFrame h]

theorem expectedTag_of_obFrame (n m : Byte) : expectedTag n m t = expectedTag n m s := by
  simp only [expectedTag, gcmKey, gcmIv, gcmAad, gcmText, obReadBytes_of_obFrame h]

theorem decryptedText_of_obFrame (n : Byte) : decryptedText n t = decryptedText n s := by
  simp only [decryptedText, gcmKey, gcmIv, gcmText, obReadBytes_of_obFrame h]

theorem gcmTagIn_of_obFrame : gcmTagIn t = gcmTagIn s := obReadBytes_of_obFrame h obTag 16

/-- The same bytes written to buffers that read alike leave buffers that read alike. -/
theorem obFrame_obWriteBytes (off : Nat) (x : Bytes) : obFrame (obWriteBytes off x s) (obWriteBytes off x t) := by
  intro o
  rw [obRead_obWriteBytes, obRead_obWriteBytes, h o]

end SameBuffer

/-- Two outcomes that are both a completed command with the same response and with buffers that read alike. -/
def AnswerAlike (o o' : Host.Outcome State Fault Refusal) : Prop :=
  ∃ flag value x x', o = complete flag value x ∧ o' = complete flag value x' ∧ obFrame x x'

/-- An encryption takes everything it validates, computes and writes from the buffer (43_gcm R210). -/
theorem execGcmEncrypt_answerAlike (p : PresentFlags) (n m : Byte) {s t : State} (h : obFrame s t) :
    AnswerAlike (execGcmEncrypt p n m s) (execGcmEncrypt p n m t) := by
  unfold execGcmEncrypt
  rw [gcmValidate_of_obFrame h, encryptedText_of_obFrame h, encryptedTag_of_obFrame h]
  split
  · exact ⟨_, _, _, _, rfl, rfl, obFrame_obWriteBytes (obFrame_obWriteBytes h _ _) _ _⟩
  · exact ⟨_, _, _, _, rfl, rfl, h⟩

/-- A decryption takes everything it validates, compares and writes from the buffer (43_gcm R215). -/
theorem execGcmDecrypt_answerAlike (p : PresentFlags) (n m : Byte) {s t : State} (h : obFrame s t) :
    AnswerAlike (execGcmDecrypt p n m s) (execGcmDecrypt p n m t) := by
  unfold execGcmDecrypt
  rw [gcmValidate_of_obFrame h, expectedTag_of_obFrame h, gcmTagIn_of_obFrame h, decryptedText_of_obFrame h]
  split
  · split
    · exact ⟨_, _, _, _, rfl, rfl, obFrame_obWriteBytes h _ _⟩
    · exact ⟨_, _, _, _, rfl, rfl, h⟩
  · exact ⟨_, _, _, _, rfl, rfl, h⟩

/-! ### The statements -/

/-- Settles O22: each effect a step can have is explained by the entries it logs, and removing an event touches no
cell. -/
theorem cellsChangeOnlyThroughLoggedOperations : Obligations.CellsChangeOnlyThroughLoggedOperations := by
  intro s t ht
  obtain ⟨rest, h⟩ := step_stepEffect ht
  exact h.loggedChange

/-- Settles O8: an idle block takes the reset; between the setter's steps it takes step B, which leaves the events. -/
theorem resetEventRestoresVolatileState : Obligations.ResetEventRestoresVolatileState := by
  refine ⟨fun s rest ha hi => ⟨_, step_reset s rest ha hi, ?_⟩, fun s rest ha hi => ?_⟩
  · simp [nvFrame]
  · have hstep : step s = setterStepB s := step_setter s ha (by simp [hi])
    have honly := persist_onlyNv { s with activity := .idle }
    exact ⟨_, hstep, ⟨honly.secondsLT, honly.minutesLT, honly.daysSinceEpoch⟩,
      fun o => congrArg (Memory.read obCleared o) honly.ob, honly.inputs.trans hi⟩

/-- Settles O23: of the ways to complete, only `cellsChanged` touches the cell array or the log. -/
theorem onlyStoreCommandsAndPersistChangeCells : Obligations.OnlyStoreCommandsAndPersistChangeCells := by
  intro i s t ht hcells
  cases exec_completion ht with
  | ticked => simp [nvFrame]
  | setterStarted => simp [nvFrame]
  | restored => rw [restore_eq]; exact ⟨fun _ => rfl, rfl⟩
  | cellsChanged hi => simp [hcells] at hi
  | bufferChanged _ h => rw [h]; exact ⟨fun _ => rfl, rfl⟩
  | onlyAnswered => exact ⟨fun _ => rfl, rfl⟩

/-- Settles O49: on buffers that read alike either GCM command completes with the same response and writes the same
bytes. -/
theorem gcmDependsOnBufferOnly : Obligations.GcmDependsOnBufferOnly := by
  intro p n m i s s' t t' hi h ht ht'
  have hframe : obFrame s s' := fun o => (h o).symm
  have halike : AnswerAlike (exec i s) (exec i s') := by
    rcases hi with rfl | rfl
    · exact execGcmEncrypt_answerAlike p n m hframe
    · exact execGcmDecrypt_answerAlike p n m hframe
  obtain ⟨flag, value, x, x', ho, ho', hx⟩ := halike
  obtain rfl := Host.Outcome.next.inj (ht.symm.trans ho)
  obtain rfl := Host.Outcome.next.inj (ht'.symm.trans ho')
  exact ⟨rfl, fun o => (hx o).symm⟩

/-- Settles O56: a tick, step A of the setter and restore are the ways to complete that touch a counter. -/
theorem countersChangeOnlyByTheirWriters : Obligations.CountersChangeOnlyByTheirWriters := by
  intro i s t ht
  cases exec_completion ht with
  | ticked hi => exact ⟨fun _ => hi, fun _ => .inl hi, fun _ => .inl hi⟩
  | setterStarted hi => exact ⟨fun hne => absurd rfl hne, fun _ => .inr (.inr ⟨_, _, hi⟩), fun hne => absurd rfl hne⟩
  | restored hi => exact ⟨fun hne => absurd (by rw [restore_eq]; rfl) hne, fun _ => .inr (.inl hi), fun _ => .inr hi⟩
  | cellsChanged _ h => exact no_counter_differs ⟨h.secondsLT, h.minutesLT, h.daysSinceEpoch⟩
  | bufferChanged _ h => rw [h]; exact no_counter_differs ⟨rfl, rfl, rfl⟩
  | onlyAnswered => exact no_counter_differs ⟨rfl, rfl, rfl⟩

/-- Settles O57: of the ways to complete, only `bufferChanged` touches the operand buffer. -/
theorem onlyBufferCommandsChangeBuffer : Obligations.OnlyBufferCommandsChangeBuffer := by
  intro i s t ht hbuffer
  cases exec_completion ht with
  | ticked => exact fun o => obRead_tick o s
  | setterStarted => exact fun _ => rfl
  | restored => rw [restore_eq]; exact fun _ => rfl
  | cellsChanged _ h => exact fun o => congrArg (Memory.read obCleared o) h.ob
  | bufferChanged hi => simp [hbuffer] at hi
  | onlyAnswered => exact fun _ => rfl

/-- Settles O58: no effect a step can have touches the configuration, and neither does removing an event. -/
theorem configurationNeverChanges : Obligations.ConfigurationNeverChanges := by
  intro s t ht
  obtain ⟨rest, h⟩ := step_stepEffect ht
  exact h.config

end Sys2Proof.Machine

/-! SUPPORT. A store that asks for what the cells already hold performs nothing (20_memory R56), and a tick shares no
state with a command on the cell array or the operand buffer (20_memory R60). -/

namespace Sys2Proof.Machine

/-! ### A mutator whose cell already holds the result -/

theorem smartErase_of_erased {a : Nat} {s : State} (h : nvRead a s = 0xFF#8) : smartErase a s = (s, false) := if_pos h

theorem smartClearBits_of_clear {a : Nat} {mask : Byte} {s : State} (h : nvRead a s &&& mask = nvRead a s) :
    smartClearBits a mask s = (s, false) := if_pos h

theorem smartUpdate_of_equal {a : Nat} {v : Byte} {s : State} (h : nvRead a s = v) :
    smartUpdate a v s = (s, false) := if_pos h

/-- A command that runs the mutator `m` on a checked address, given again where `m` finds nothing left to do. -/
theorem checked_again {addr : Half} {m : State → State × Bool} {s t : State} (honly : OnlyNv s (m s).1)
    (hagain : ∀ flag, m (respond .ok flag 0#16 (m s).1) = (respond .ok flag 0#16 (m s).1, false))
    (ht : (if nvValid addr s then complete (m s).2 0#16 (m s).1 else raiseAddress s) = .next t) :
    ∃ u, (if nvValid addr t then complete (m t).2 0#16 (m t).1 else raiseAddress t) = .next u ∧
      answered u false 0#16 ∧ nvFrame t u := by
  obtain ⟨hvalid, ht⟩ := checked_next.1 ht
  have hm : m t = (t, false) := ht ▸ hagain _
  have hvalid' : nvValid addr t := by rwa [ht, nvValid, respond_config, honly.config]
  refine ⟨respond .ok false 0#16 t, ?_, rfl, fun _ => rfl, rfl⟩
  rw [hm]
  exact checked_next.2 ⟨hvalid', rfl⟩

/-! ### Persist where the time is already stored -/

/-- Persist where the three cells already hold the time performs nothing (41_rtc R147). -/
theorem persist_of_stored {s : State} (hhhq : nvRead s.config.nvAddrHhq s = hhqEncode s.minutesLT)
    (hdays : storedDays s = s.daysSinceEpoch) : persist s = s := by
  simp only [persist, smartUpdate_of_equal hhhq, if_pos hdays]

/-- What persist stored it does not store again, with the answer given in between. -/
theorem persist_respond_persist (status : Status) (flag : Bool) (value : Half) {s : State} (h : s.config.wf) :
    persist (respond status flag value (persist s)) = respond status flag value (persist s) := by
  have honly := persist_onlyNv s
  obtain ⟨hhhq, hdays, -⟩ := persist_cells s h
  refine persist_of_stored ?_ (hdays.trans honly.daysSinceEpoch.symm)
  rw [nvRead_respond, respond_config, respond_minutesLT, honly.config, honly.minutesLT, hhhq]

/-- Persist that changes no cell performs nothing: the cells held the time before. -/
theorem persist_of_nvRead_eq {s : State} (h : s.config.wf) (hsame : ∀ a, nvRead a (persist s) = nvRead a s) :
    persist s = s := by
  obtain ⟨hhhq, hdays, -⟩ := persist_cells s h
  refine persist_of_stored ((hsame _).symm.trans hhhq) ?_
  rw [← storedDays_congr (persist_onlyNv s).config (hsame _) (hsame _), hdays]

/-- The hour stands in bits 7:3 and the quarter code in bits 2:0 (41_rtc R146). -/
theorem hhq_toNat : ∀ h < 24, ∀ q < 4,
    ((BitVec.ofNat 8 h <<< 3) ||| quarterCode q).toNat = h * 8 + [7, 6, 4, 0].getD q 0 := by decide

theorem hhqEncode_toNat {m : Half} (h : m.toNat ≤ 1439) :
    (hhqEncode m).toNat = m.toNat / 60 * 8 + [7, 6, 4, 0].getD (m.toNat % 60 / 15) 0 := by
  rw [hhqEncode_of_le m h, hhq_toNat _ (by omega) _ (by omega)]

/-! ### A tick commutes with every operation on the two spaces -/

/-- What a tick makes of the counters depends on the counters and the configuration only (41_rtc R140). -/
theorem tick_of_clockFrame {s t : State} (h : clockFrame s t) (hc : t.config = s.config) :
    tick t = { t with
      secondsLT := (tick s).secondsLT, minutesLT := (tick s).minutesLT
      daysSinceEpoch := (tick s).daysSinceEpoch } := by
  obtain ⟨hsec, hmin, hday⟩ := h
  unfold tick carryMinute carryDay
  simp only [hsec, hmin, hday, hc]
  split
  · split <;> rfl
  · rfl

theorem tick_respond (status : Status) (flag : Bool) (value : Half) (s : State) :
    tick (respond status flag value s) = respond status flag value (tick s) :=
  (tick_of_clockFrame (s := s) (t := respond status flag value s) ⟨rfl, rfl, rfl⟩ rfl).trans
    (congrArg (respond status flag value) (tick_eq s).symm)

theorem tick_nvPerform (op : NvOp) (a : Nat) (v : Byte) (s : State) :
    tick (nvPerform op a v s) = nvPerform op a v (tick s) :=
  (tick_of_clockFrame (s := s) (t := nvPerform op a v s) ⟨rfl, rfl, rfl⟩ rfl).trans
    (congrArg (nvPerform op a v) (tick_eq s).symm)

theorem tick_obWrite (o : Nat) (v : Byte) (s : State) : tick (obWrite o v s) = obWrite o v (tick s) :=
  (tick_of_clockFrame (s := s) (t := obWrite o v s) ⟨rfl, rfl, rfl⟩ rfl).trans
    (congrArg (obWrite o v) (tick_eq s).symm)

theorem tick_obWriteBytes (off : Nat) (x : Bytes) (s : State) :
    tick (obWriteBytes off x s) = obWriteBytes off x (tick s) := by
  induction x generalizing off s with
  | nil => rfl
  | cons b x ih => rw [obWriteBytes, ih, tick_obWrite, obWriteBytes]

/-- The three mutators make of the cells after a tick what they make of them before it. -/
theorem smartErase_tick (a : Nat) (s : State) : smartErase a (tick s) = (smartErase a s).map tick id := by
  unfold smartErase nvErase nvEraseWrite
  simp only [nvRead_tick, tick_config, ← tick_nvPerform]
  split
  · rfl
  · split <;> rfl

theorem smartClearBits_tick (a : Nat) (mask : Byte) (s : State) :
    smartClearBits a mask (tick s) = (smartClearBits a mask s).map tick id := by
  unfold smartClearBits nvWrite nvEraseWrite
  simp only [nvRead_tick, tick_config, ← tick_nvPerform]
  split
  · rfl
  · split <;> rfl

theorem smartUpdate_tick (a : Nat) (v : Byte) (s : State) :
    smartUpdate a v (tick s) = (smartUpdate a v s).map tick id := by
  unfold smartUpdate nvEraseWrite
  simp only [nvRead_tick, smartErase_tick, smartClearBits_tick, ← tick_nvPerform, apply_ite (Prod.map tick id)]
  rfl

/-- A completed command, where its state before the answer is reached after the tick too. -/
theorem complete_tick {flag : Bool} {value : Half} {x t : State} (ht : complete flag value x = .next t) :
    complete flag value (tick x) = .next (tick t) := by
  obtain rfl := Host.Outcome.next.inj ht
  rw [tick_respond]; rfl

/-- A command that decides by a condition the tick does not touch, when both its branches survive the tick. -/
theorem branch_tick {c : Prop} [Decidable c] {o o' u u' : Host.Outcome State Fault Refusal} {t : State}
    (hthen : o = .next t → o' = .next (tick t)) (helse : u = .next t → u' = .next (tick t))
    (ht : (if c then o else u) = .next t) : (if c then o' else u') = .next (tick t) := by
  by_cases hc : c
  · rw [if_pos hc] at ht ⊢; exact hthen ht
  · rw [if_neg hc] at ht ⊢; exact helse ht

/-- A command that checks its address, under a check the tick does not touch. -/
theorem checked_tick {c : Prop} [Decidable c] {flag : Bool} {value : Half} {x s t : State}
    (ht : (if c then complete flag value x else raiseAddress s) = .next t) :
    (if c then complete flag value (tick x) else raiseAddress (tick s)) = .next (tick t) :=
  branch_tick complete_tick (u := raiseAddress s) nofun ht

theorem execGcmEncrypt_tick {p : PresentFlags} {n m : Byte} {s t : State} (ht : execGcmEncrypt p n m s = .next t) :
    execGcmEncrypt p n m (tick s) = .next (tick t) := by
  have hob : obFrame s (tick s) := fun o => obRead_tick o s
  unfold execGcmEncrypt at ht ⊢
  rw [gcmValidate_of_obFrame hob, encryptedText_of_obFrame hob, encryptedTag_of_obFrame hob, ← tick_obWriteBytes,
    ← tick_obWriteBytes]
  exact branch_tick complete_tick complete_tick ht

theorem execGcmDecrypt_tick {p : PresentFlags} {n m : Byte} {s t : State} (ht : execGcmDecrypt p n m s = .next t) :
    execGcmDecrypt p n m (tick s) = .next (tick t) := by
  have hob : obFrame s (tick s) := fun o => obRead_tick o s
  unfold execGcmDecrypt at ht ⊢
  rw [gcmValidate_of_obFrame hob, expectedTag_of_obFrame hob, gcmTagIn_of_obFrame hob, decryptedText_of_obFrame hob,
    ← tick_obWriteBytes]
  exact branch_tick (branch_tick complete_tick complete_tick) complete_tick ht

/-- A BS, OB or GCM command that completes does so after a tick too, in the ticked state (20_memory R60). -/
theorem exec_tick {i : Instr} {s t : State} (hi : memoryOnly i = true) (ht : exec i s = .next t) :
    exec i (tick s) = .next (tick t) := by
  cases i with
  | bsRead addr =>
    simp only [exec, execBsRead, nvValid, tick_config, nvRead_tick]
    exact checked_tick ht
  | bsUpdate addr value =>
    simp only [exec, execBsUpdate, nvValid, tick_config, smartUpdate_tick]
    exact checked_tick ht
  | bsErase addr =>
    simp only [exec, execBsErase, nvValid, tick_config, smartErase_tick]
    exact checked_tick ht
  | bsClrbits addr mask =>
    simp only [exec, execBsClrbits, nvValid, tick_config, smartClearBits_tick]
    exact checked_tick ht
  | gcmEncrypt p n m => exact execGcmEncrypt_tick ht
  | gcmDecrypt p n m => exact execGcmDecrypt_tick ht
  | obWr off byte =>
    simp only [exec, execObWr, ← tick_obWrite]
    exact checked_tick ht
  | obRd off =>
    simp only [exec, execObRd, obRead_tick]
    exact checked_tick ht
  | _ => exact absurd hi Bool.false_ne_true

/-! ### The statements -/

/-- Settles O20: the cell holds what the mutator left there, so the second run of it finds its own result. -/
theorem storeCommandsAreIdempotent : Obligations.StoreCommandsAreIdempotent := by
  intro addr v i s t hi ht
  rcases hi with rfl | rfl | rfl
  · have h := smartUpdate_spec addr.toNat v s
    exact checked_again h.onlyNv (fun _ => smartUpdate_of_equal h.cell) ht
  · have h := smartErase_spec addr.toNat s
    exact checked_again h.onlyNv (fun _ => smartErase_of_erased h.cell) ht
  · have h := smartClearBits_spec addr.toNat v s
    refine checked_again h.onlyNv (fun _ => smartClearBits_of_clear ?_) ht
    rw [nvRead_respond, h.cell, BitVec.and_assoc, BitVec.and_self]

/-- Settles O32: by what persist leaves in the cells, and because persist that changes no cell is no change at all. -/
theorem persistStoresTime : Obligations.PersistStoresTime := by
  intro s hcfg
  have honly := persist_onlyNv s
  obtain ⟨hhhq, hdays, hothers⟩ := persist_cells s hcfg
  refine ⟨_, rfl, rfl, fun hmin => ?_, ?_, ?_, hothers, fun hsame => ?_,
    ⟨honly.secondsLT, honly.minutesLT, honly.daysSinceEpoch⟩, fun o => congrArg (Memory.read obCleared o) honly.ob,
    honly.config, honly.activity, honly.inputs⟩
  · rw [nvRead_respond, hhhq, hhqEncode_toNat hmin]
  · rw [nvRead_respond, ← hdays, storedDays_low, honly.config]
  · rw [nvRead_respond, ← hdays, storedDays_high, honly.config]
  · rw [respond_nvlog, persist_of_nvRead_eq hcfg hsame]

/-- Settles O33: the second persist finds stored what the first one stored. -/
theorem persistTwicePerformsNothing : Obligations.PersistTwicePerformsNothing := by
  intro s t u hcfg ht hu
  obtain rfl := Host.Outcome.next.inj ht
  obtain rfl := Host.Outcome.next.inj hu
  rw [persist_respond_persist _ _ _ hcfg]
  exact ⟨fun _ => rfl, rfl⟩

/-- Settles O55: the tick reads and writes the counters, the command only memories, the port and the configuration. -/
theorem tickCommutesWithMemoryCommands : Obligations.TickCommutesWithMemoryCommands :=
  fun _ s t hi ht => ⟨tick s, tick t, rfl, exec_tick hi ht, rfl⟩

end Sys2Proof.Machine


/-! SUPPORT. The encoder and the decoder are inverse to each other, format by format (30_encoding R81), and the words
that decode are those of the opcode table (R86, R88). -/

namespace Sys2Proof

/-! ### Decoding an encoded word: the dispatch on the opcode, then the fields -/

theorem decode_encodeZ {op : Byte} {i : Instr} (hop : ∀ w, fieldOp w = op → decodeCommand w = decodeZ w i) :
    decode (encodeZ op) = .ok i :=
  (hop _ (fieldOp_Z ..)).trans (if_pos (fieldLow24_Z ..))

theorem decode_encodeA {op : Byte} {mk : Half → Instr} {addr : Half}
    (hop : ∀ w, fieldOp w = op → decodeCommand w = decodeA w mk) : decode (encodeA op addr) = .ok (mk addr) := by
  refine (hop _ (fieldOp_AB ..)).trans ?_
  simp only [decodeA, fieldByte0_AB, fieldAddr_AB, if_true]

theorem decode_encodeAB {op byte : Byte} {mk : Half → Byte → Instr} {addr : Half}
    (hop : ∀ w, fieldOp w = op → decodeCommand w = decodeAB w mk) :
    decode (encodeAB op addr byte) = .ok (mk addr byte) := by
  refine (hop _ (fieldOp_AB ..)).trans ?_
  simp only [decodeAB, fieldByte0_AB, fieldAddr_AB]

theorem decode_encodeHM {op hours minutes : Byte} {mk : Byte → Byte → Instr}
    (hop : ∀ w, fieldOp w = op → decodeCommand w = decodeHM w mk) :
    decode (encodeHM op hours minutes) = .ok (mk hours minutes) := by
  refine (hop _ (fieldOp_HM ..)).trans ?_
  simp only [decodeHM, fieldByte2_HM, fieldByte1_HM, fieldByte0_HM, if_true]

theorem decode_encodeG {op n m : Byte} {p : PresentFlags} {mk : PresentFlags → Byte → Byte → Instr}
    (hop : ∀ w, fieldOp w = op → decodeCommand w = decodeG w mk) :
    decode (encodeG op p n m) = .ok (mk p n m) := by
  refine (hop _ (fieldOp_G ..)).trans ?_
  simp only [decodeG, fieldNibble4_G, fieldPresent_G, fieldByte1_G, fieldByte0_G, if_true]

/-- The decoder gives back what was encoded; the cases are the five formats of 30_encoding R81 and the pulse of R85. -/
theorem decode_encode (i : Instr) : decode (encode i) = .ok i := by
  cases i with
  | bsRead | bsErase | obRd => exact decode_encodeA fun w hw => by simp [decodeCommand, hw]
  | bsUpdate | bsClrbits | obWr => exact decode_encodeAB fun w hw => by simp [decodeCommand, hw]
  | rtcSethm => exact decode_encodeHM fun w hw => by simp [decodeCommand, hw]
  | rtcPersist | rtcRestore | rtcGetsec | rtcGetmsm | rtcGetdays | rtcGethours | rtcGetmins =>
    exact decode_encodeZ fun w hw => by simp [decodeCommand, hw]
  | gcmEncrypt | gcmDecrypt => exact decode_encodeG fun w hw => by simp [decodeCommand, hw]
  | rtcTick => rfl

/-! ### A word whose must-be-zero bits are zero is the encoding of its fields -/

/-- The bits of the `P` field are the four flags read from it (30_encoding R83). -/
theorem presentBits_fieldPresent (w : Word) : presentBits (fieldPresent w) = w.extractLsb' 20 4 := by
  have hbits : ∀ v : BitVec 4, presentBits ⟨v.getLsbD 3, v.getLsbD 2, v.getLsbD 1, v.getLsbD 0⟩ = v := by decide
  have hflags : fieldPresent w = ⟨(w.extractLsb' 20 4).getLsbD 3, (w.extractLsb' 20 4).getLsbD 2,
      (w.extractLsb' 20 4).getLsbD 1, (w.extractLsb' 20 4).getLsbD 0⟩ := by
    simp [fieldPresent]
  rw [hflags, hbits]

/-- Two adjacent slices of a word are one slice. -/
theorem slice_append_slice (w : Word) (start n m : Nat) :
    w.extractLsb' (start + m) n ++ w.extractLsb' start m = w.extractLsb' start (n + m) :=
  BitVec.extractLsb'_append_extractLsb'_eq_extractLsb' rfl

theorem slice_append_fieldByte0 (w : Word) : w.extractLsb' 8 24 ++ fieldByte0 w = w :=
  (slice_append_slice w 0 24 8).trans BitVec.extractLsb'_eq_self

theorem slice_append_fieldByte1 (w : Word) : w.extractLsb' 16 16 ++ fieldByte1 w = w.extractLsb' 8 24 :=
  slice_append_slice w 8 16 8

theorem encodeZ_fields {w : Word} (hz : fieldLow24 w = 0#24) : encodeZ (fieldOp w) = .command w := by
  have hw : fieldOp w ++ fieldLow24 w = w := (slice_append_slice w 0 8 24).trans BitVec.extractLsb'_eq_self
  rw [encodeZ, ← hz, hw]

/-- Format `AB` has no must-be-zero bits: every word is the encoding of its opcode, address and byte. -/
theorem encodeAB_fields (w : Word) : encodeAB (fieldOp w) (fieldAddr w) (fieldByte0 w) = .command w := by
  have hhigh : fieldOp w ++ fieldAddr w = w.extractLsb' 8 24 := slice_append_slice w 8 8 16
  rw [encodeAB, hhigh, slice_append_fieldByte0]

theorem encodeA_fields {w : Word} (hz : fieldByte0 w = 0#8) : encodeA (fieldOp w) (fieldAddr w) = .command w := by
  rw [encodeA, ← hz]
  exact encodeAB_fields w

theorem encodeHM_fields {w : Word} (hz : fieldByte2 w = 0#8) :
    encodeHM (fieldOp w) (fieldByte1 w) (fieldByte0 w) = .command w := by
  have hhigh : fieldOp w ++ fieldByte2 w = w.extractLsb' 16 16 := slice_append_slice w 16 8 8
  rw [encodeHM, ← hz, hhigh, slice_append_fieldByte1, slice_append_fieldByte0]

theorem encodeG_fields {w : Word} (hz : fieldNibble4 w = 0#4) :
    encodeG (fieldOp w) (fieldPresent w) (fieldByte1 w) (fieldByte0 w) = .command w := by
  have hhigh : fieldOp w ++ w.extractLsb' 20 4 = w.extractLsb' 20 12 := slice_append_slice w 20 8 4
  have hlow : w.extractLsb' 20 12 ++ fieldNibble4 w = w.extractLsb' 16 16 := slice_append_slice w 16 12 4
  rw [encodeG, ← hz, presentBits_fieldPresent, hhigh, hlow, slice_append_fieldByte1, slice_append_fieldByte0]

/-! ### A word that decodes is the encoding of what it decodes to: one lemma for each format, then the dispatch -/

section
variable {w : Word} {op : Byte} {i : Instr}

theorem encode_of_decodeZ {j : Instr} (henc : encode j = encodeZ op) (hop : fieldOp w = op)
    (h : decodeZ w j = .ok i) : encode i = .command w := by
  unfold decodeZ at h
  split at h
  · next hz => exact Except.ok.inj h ▸ henc.trans (hop ▸ encodeZ_fields hz)
  · cases h

theorem encode_of_decodeA {mk : Half → Instr} (henc : ∀ addr, encode (mk addr) = encodeA op addr)
    (hop : fieldOp w = op) (h : decodeA w mk = .ok i) : encode i = .command w := by
  unfold decodeA at h
  split at h
  · next hz => exact Except.ok.inj h ▸ (henc _).trans (hop ▸ encodeA_fields hz)
  · cases h

theorem encode_of_decodeAB {mk : Half → Byte → Instr}
    (henc : ∀ addr byte, encode (mk addr byte) = encodeAB op addr byte) (hop : fieldOp w = op)
    (h : decodeAB w mk = .ok i) : encode i = .command w :=
  Except.ok.inj h ▸ (henc _ _).trans (hop ▸ encodeAB_fields w)

theorem encode_of_decodeHM {mk : Byte → Byte → Instr}
    (henc : ∀ hours minutes, encode (mk hours minutes) = encodeHM op hours minutes) (hop : fieldOp w = op)
    (h : decodeHM w mk = .ok i) : encode i = .command w := by
  unfold decodeHM at h
  split at h
  · next hz => exact Except.ok.inj h ▸ (henc _ _).trans (hop ▸ encodeHM_fields hz)
  · cases h

theorem encode_of_decodeG {mk : PresentFlags → Byte → Byte → Instr}
    (henc : ∀ p n m, encode (mk p n m) = encodeG op p n m) (hop : fieldOp w = op)
    (h : decodeG w mk = .ok i) : encode i = .command w := by
  unfold decodeG at h
  split at h
  · next hz => exact Except.ok.inj h ▸ (henc _ _ _).trans (hop ▸ encodeG_fields hz)
  · cases h

/-- One line of the decoder: the word has the line's opcode and the line decodes it, or the lines below do. -/
theorem decoder_line {d rest : Except DecodeError Instr} {P : Prop} (hline : fieldOp w = op → d = .ok i → P)
    (hrest : rest = .ok i → P) (h : (if fieldOp w = op then d else rest) = .ok i) : P := by
  split at h
  · next hop => exact hline hop h
  · exact hrest h

/-- The lines are those of the decoder, in its order, with the opcodes of 30_encoding R86. -/
theorem encode_of_decodeCommand (h : decodeCommand w = .ok i) : encode i = .command w := by
  revert h
  refine decoder_line (op := 0x10#8) (encode_of_decodeA fun _ => rfl) ?_
  refine decoder_line (op := 0x11#8) (encode_of_decodeAB fun _ _ => rfl) ?_
  refine decoder_line (op := 0x12#8) (encode_of_decodeA fun _ => rfl) ?_
  refine decoder_line (op := 0x13#8) (encode_of_decodeAB fun _ _ => rfl) ?_
  refine decoder_line (op := 0x20#8) (encode_of_decodeHM fun _ _ => rfl) ?_
  refine decoder_line (op := 0x21#8) (encode_of_decodeZ rfl) ?_
  refine decoder_line (op := 0x22#8) (encode_of_decodeZ rfl) ?_
  refine decoder_line (op := 0x28#8) (encode_of_decodeZ rfl) ?_
  refine decoder_line (op := 0x29#8) (encode_of_decodeZ rfl) ?_
  refine decoder_line (op := 0x2A#8) (encode_of_decodeZ rfl) ?_
  refine decoder_line (op := 0x2B#8) (encode_of_decodeZ rfl) ?_
  refine decoder_line (op := 0x2C#8) (encode_of_decodeZ rfl) ?_
  refine decoder_line (op := 0x30#8) (encode_of_decodeG fun _ _ _ => rfl) ?_
  refine decoder_line (op := 0x31#8) (encode_of_decodeG fun _ _ _ => rfl) ?_
  refine decoder_line (op := 0x40#8) (encode_of_decodeAB fun _ _ => rfl) ?_
  refine decoder_line (op := 0x41#8) (encode_of_decodeA fun _ => rfl) ?_
  exact nofun

/-- On both ports: what is presented is the encoding of what it decodes to. -/
theorem encode_of_decode {p : PortWord} (h : decode p = .ok i) : encode i = p := by
  cases p with
  | command w => exact encode_of_decodeCommand h
  | pulse => exact Except.ok.inj h ▸ rfl

end

/-! ### The rows of the opcode table (30_encoding R86): every word that matches a row encodes an instruction -/

section
variable {w mask : Word} {op : Byte}

/-- Where a row's mask is all ones, the word has the bits of the row's match. -/
theorem slice_of_mask {m : Word} {start len : Nat} (hones : mask.extractLsb' start len = BitVec.allOnes len)
    (h : w &&& mask = m) : w.extractLsb' start len = m.extractLsb' start len := by
  rw [← h, BitVec.extractLsb'_and, hones, BitVec.and_allOnes]

theorem fieldOp_of_mask (hones : fieldOp mask = BitVec.allOnes 8) (h : w &&& mask = op ++ 0#24) : fieldOp w = op :=
  (slice_of_mask hones h).trans (fieldOp_Z op 0#24)

/-- The match of every row is zero below the opcode. -/
theorem slice_eq_zero_of_mask {start len : Nat} (hlow : start + len ≤ 24)
    (hones : mask.extractLsb' start len = BitVec.allOnes len) (h : w &&& mask = op ++ 0#24) :
    w.extractLsb' start len = 0#len := by
  rw [slice_of_mask hones h, BitVec.extractLsb'_append_eq_of_add_le hlow, BitVec.extractLsb'_zero]

theorem exists_encode_of_maskZ (op : Byte) (i : Instr) (henc : encode i = encodeZ op)
    (h : w &&& 0xFFFFFFFF#32 = op ++ 0#24) : ∃ i, encode i = .command w := by
  obtain rfl := fieldOp_of_mask (by decide) h
  exact ⟨i, henc.trans (encodeZ_fields (slice_eq_zero_of_mask (by decide) (by decide) h))⟩

theorem exists_encode_of_maskA (op : Byte) (mk : Half → Instr) (henc : ∀ addr, encode (mk addr) = encodeA op addr)
    (h : w &&& 0xFF0000FF#32 = op ++ 0#24) : ∃ i, encode i = .command w := by
  obtain rfl := fieldOp_of_mask (by decide) h
  exact ⟨_, (henc _).trans (encodeA_fields (slice_eq_zero_of_mask (by decide) (by decide) h))⟩

theorem exists_encode_of_maskAB (op : Byte) (mk : Half → Byte → Instr)
    (henc : ∀ addr byte, encode (mk addr byte) = encodeAB op addr byte)
    (h : w &&& 0xFF000000#32 = op ++ 0#24) : ∃ i, encode i = .command w := by
  obtain rfl := fieldOp_of_mask (by decide) h
  exact ⟨_, (henc _ _).trans (encodeAB_fields w)⟩

theorem exists_encode_of_maskHM (op : Byte) (mk : Byte → Byte → Instr)
    (henc : ∀ hours minutes, encode (mk hours minutes) = encodeHM op hours minutes)
    (h : w &&& 0xFFFF0000#32 = op ++ 0#24) : ∃ i, encode i = .command w := by
  obtain rfl := fieldOp_of_mask (by decide) h
  exact ⟨_, (henc _ _).trans (encodeHM_fields (slice_eq_zero_of_mask (by decide) (by decide) h))⟩

theorem exists_encode_of_maskG (op : Byte) (mk : PresentFlags → Byte → Byte → Instr)
    (henc : ∀ p n m, encode (mk p n m) = encodeG op p n m)
    (h : w &&& 0xFF0F0000#32 = op ++ 0#24) : ∃ i, encode i = .command w := by
  obtain rfl := fieldOp_of_mask (by decide) h
  exact ⟨_, (henc _ _ _).trans (encodeG_fields (slice_eq_zero_of_mask (by decide) (by decide) h))⟩

/-- The lines are the rows of the table, in its order. -/
theorem exists_encode_of_row : ∀ row ∈ opcodeTable, w &&& row.2 = row.1 → ∃ i, encode i = .command w := by
  simp only [opcodeTable, List.cons_append, List.nil_append, List.forall_mem_cons]
  exact ⟨exists_encode_of_maskA 0x10#8 .bsRead fun _ => rfl,
    exists_encode_of_maskAB 0x11#8 .bsUpdate fun _ _ => rfl,
    exists_encode_of_maskA 0x12#8 .bsErase fun _ => rfl,
    exists_encode_of_maskAB 0x13#8 .bsClrbits fun _ _ => rfl,
    exists_encode_of_maskHM 0x20#8 .rtcSethm fun _ _ => rfl,
    exists_encode_of_maskZ 0x21#8 .rtcPersist rfl,
    exists_encode_of_maskZ 0x22#8 .rtcRestore rfl,
    exists_encode_of_maskZ 0x28#8 .rtcGetsec rfl,
    exists_encode_of_maskZ 0x29#8 .rtcGetmsm rfl,
    exists_encode_of_maskZ 0x2A#8 .rtcGetdays rfl,
    exists_encode_of_maskZ 0x2B#8 .rtcGethours rfl,
    exists_encode_of_maskZ 0x2C#8 .rtcGetmins rfl,
    exists_encode_of_maskG 0x30#8 .gcmEncrypt fun _ _ _ => rfl,
    exists_encode_of_maskG 0x31#8 .gcmDecrypt fun _ _ _ => rfl,
    exists_encode_of_maskAB 0x40#8 .obWr fun _ _ => rfl,
    exists_encode_of_maskA 0x41#8 .obRd fun _ => rfl, List.forall_mem_nil _⟩

end

/-- Every instruction's word matches the instruction's row, which is a row of the table. -/
theorem encode_matches_row (i : Instr) : Laws.RowBits.Statement i := by
  cases i with
  | bsRead addr => exact Laws.RowBits.bsRead addr
  | bsUpdate addr value => exact Laws.RowBits.bsUpdate addr value
  | bsErase addr => exact Laws.RowBits.bsErase addr
  | bsClrbits addr mask => exact Laws.RowBits.bsClrbits addr mask
  | rtcSethm hours minutes => exact Laws.RowBits.rtcSethm hours minutes
  | rtcPersist => exact Laws.RowBits.rtcPersist
  | rtcRestore => exact Laws.RowBits.rtcRestore
  | rtcGetsec => exact Laws.RowBits.rtcGetsec
  | rtcGetmsm => exact Laws.RowBits.rtcGetmsm
  | rtcGetdays => exact Laws.RowBits.rtcGetdays
  | rtcGethours => exact Laws.RowBits.rtcGethours
  | rtcGetmins => exact Laws.RowBits.rtcGetmins
  | gcmEncrypt p n m => exact Laws.RowBits.gcmEncrypt p n m
  | gcmDecrypt p n m => exact Laws.RowBits.gcmDecrypt p n m
  | obWr off byte => exact Laws.RowBits.obWr off byte
  | obRd off => exact Laws.RowBits.obRd off
  | rtcTick => exact Laws.RowBits.rtcTick

/-- What a command word decodes to has a row, and the word matches it. -/
theorem opcodeRow_of_decode {w : Word} {i : Instr} (h : decode (.command w) = .ok i) :
    ∃ row, opcodeRow i = some row ∧ row ∈ opcodeTable ∧ w &&& row.2 = row.1 := by
  have hrow := encode_matches_row i
  rw [Laws.RowBits.Statement, encode_of_decode h] at hrow
  cases hi : opcodeRow i with
  | some row =>
    rw [hi] at hrow
    obtain ⟨hmatch, hmem⟩ := hrow
    exact ⟨row, rfl, hmem, hmatch⟩
  | none =>
    rw [hi] at hrow
    exact hrow.elim

end Sys2Proof

/-! SUPPORT. The statements on the encoding, and the accessors' answers (41_rtc R152 to R157). -/

namespace Sys2Proof.Machine

/-- What a command that answers `value` with FLAG 0 leaves: a response word that says so, and nothing else changed. -/
theorem complete_answers {value : Half} {n : Nat} (s : State) (hvalue : value.toNat = n) :
    ∃ r, complete false value s = .next { s with response := some r } ∧ responseStatus r = 0#2 ∧
      responseFlag r = false ∧ (responseValue r).toNat = n :=
  ⟨responseWord .ok false value, rfl, responseStatus_responseWord .ok .., responseFlag_responseWord ..,
    (congrArg BitVec.toNat (responseValue_responseWord ..)).trans hvalue⟩

/-- Settles O1: by the round trip of each of the five formats. -/
theorem decodeOfEncodeIsTheInstruction : Obligations.DecodeOfEncodeIsTheInstruction := decode_encode

/-- Settles O2: where the must-be-zero bits are zero, the fields make up the word. -/
theorem encodeOfDecodeIsTheWord : Obligations.EncodeOfDecodeIsTheWord := fun _ _ => encode_of_decode

/-- Settles O3: a word that matches a row is an encoding, and a word that decodes is the encoding of its instruction,
whose row it matches. -/
theorem commandWordsMatchOpcodeTable : Obligations.CommandWordsMatchOpcodeTable := by
  refine fun w => ⟨⟨fun ⟨i, hi⟩ => ?_, fun ⟨row, hmem, hmatch⟩ => ?_⟩, fun i hi => ?_⟩
  · obtain ⟨row, -, hmem, hmatch⟩ := opcodeRow_of_decode hi
    exact ⟨row, hmem, hmatch⟩
  · obtain ⟨i, hi⟩ := exists_encode_of_row row hmem hmatch
    exact ⟨i, hi ▸ decode_encode i⟩
  · obtain ⟨row, hrow, -, hmatch⟩ := opcodeRow_of_decode hi
    exact ⟨row, hrow, hmatch⟩

/-- Settles O36: each accessor only answers, and its value fits in the 16 bits of VALUE. -/
theorem accessorsAnswerCounters : Obligations.AccessorsAnswerCounters := by
  intro s
  have hmin := s.minutesLT.isLt
  exact ⟨complete_answers s (BitVec.toNat_setWidth_of_le (by decide)), complete_answers s rfl, complete_answers s rfl,
    complete_answers s (Nat.mod_eq_of_lt (by omega)), complete_answers s (Nat.mod_eq_of_lt (by omega))⟩

/-- Settles O4: each printed word is the encoding of its line. -/
theorem syntaxTableWordsDecode : Obligations.SyntaxTableWordsDecode :=
  ⟨decode_encode (.bsRead 0x0008#16), decode_encode (.bsUpdate 0x0008#16 0x4E#8), decode_encode (.bsErase 0x0008#16),
    decode_encode (.bsClrbits 0x0008#16 0xFC#8), decode_encode (.rtcSethm 9#8 20#8), decode_encode .rtcPersist,
    decode_encode .rtcRestore, decode_encode .rtcGetsec, decode_encode .rtcGetmsm, decode_encode .rtcGetdays,
    decode_encode .rtcGethours, decode_encode .rtcGetmins, decode_encode (.gcmEncrypt allPresent 16#8 0#8),
    decode_encode (.gcmDecrypt allPresent 16#8 0#8), decode_encode (.obWr 0x000#16 16#8),
    decode_encode (.obRd 0x030#16), decode_encode .rtcTick⟩

/-- Settles O5: by the fields of a response word. -/
theorem responseWordLayout : Obligations.ResponseWordLayout := fun _ _ =>
  ⟨fun _ => ⟨responseZeros_responseWord .., responseFlag_responseWord .., responseValue_responseWord ..⟩,
    responseStatus_responseWord .., responseStatus_responseWord .., responseStatus_responseWord ..⟩

end Sys2Proof.Machine

/-! SUPPORT. The byte store commands (40_bytestore R118 to R121) and the laws of their mutators (R122): what a command
with a valid address answers follows from what its mutator does, with either value of SPLIT_EW (R123). -/

namespace Sys2Proof.Machine

/-! ### Bits that may rise -/

/-- Clearing bits sets none. -/
theorem and_and_not_self (x y : Byte) : x &&& y &&& ~~~x = 0#8 := by
  rw [BitVec.and_comm x y, BitVec.and_assoc, BitVec.and_not_self]
  exact BitVec.and_zero

/-- Where no bit of `y` is new against `x`, clearing bits of `x` reaches `y`. -/
theorem and_eq_of_and_not_eq_zero {x y : Byte} (h : y &&& ~~~x = 0#8) : x &&& y = y := by
  refine BitVec.eq_of_getLsbD_eq fun i hi => ?_
  have hbit := congrArg (BitVec.getLsbD · i) h
  cases hx : x.getLsbD i with
  | false => simpa [hx, hi] using hbit.symm
  | true => simp [hx]

/-! ### The mutators -/

/-- smartUpdate to the erased value is smartErase. -/
theorem smartUpdate_allOnes (a : Nat) (s : State) : smartUpdate a 0xFF#8 s = smartErase a s := by
  by_cases h : nvRead a s = 0xFF#8
  · rw [smartUpdate_of_equal h, smartErase_of_erased h]
  · exact (if_neg h).trans (if_pos rfl)

/-- smartUpdate to a value that needs no bit to rise is smartClearBits. -/
theorem smartUpdate_of_and_eq {a : Nat} {v : Byte} {s : State} (h : nvRead a s &&& v = v) :
    smartUpdate a v s = smartClearBits a v s := by
  by_cases heq : nvRead a s = v
  · rw [smartUpdate_of_equal heq, smartClearBits_of_clear (h.trans heq.symm)]
  · have hv : v ≠ 0xFF#8 := fun hv => heq (BitVec.and_allOnes.symm.trans (hv ▸ h))
    exact (if_neg heq).trans ((if_neg hv).trans (if_pos h))

/-- Each mutator logs at most one operation, and none exactly when its result is false. -/
theorem Mutated.log_growth {a : Nat} {new : Byte} {op : NvOp} {s : State} {r : State × Bool}
    (h : Mutated a new op s r) :
    ∃ ops, r.1.nvlog = s.nvlog ++ ops ∧ ops.length ≤ 1 ∧ (ops = [] ↔ r.2 = false) := by
  refine ⟨_, h.log, ?_⟩
  rw [h.flag]
  by_cases hold : nvRead a s = new <;> simp [hold]

/-! ### Erases on hardware with split erase and write -/

section
variable {a : Nat} {v : Byte} {s : State} (hsplit : s.config.splitEw = true)
include hsplit

theorem eraseCount_smartClearBits (mask : Byte) (b : Nat) :
    eraseCount b (smartClearBits a mask s).1.nvlog = eraseCount b s.nvlog := by
  rw [(smartClearBits_spec a mask s).log, hsplit]
  split <;> simp [eraseCount, clearOp]

/-- Only a bit that must rise makes smartUpdate erase: without one it is smartClearBits. -/
theorem bit_rises_of_eraseCount_smartUpdate {b : Nat}
    (h : eraseCount b (smartUpdate a v s).1.nvlog ≠ eraseCount b s.nvlog) : v &&& ~~~(nvRead a s) ≠ 0#8 := by
  intro hrise
  rw [smartUpdate_of_and_eq (and_eq_of_and_not_eq_zero hrise)] at h
  exact h (eraseCount_smartClearBits hsplit v b)

end

/-! ### The operation by the value of SPLIT_EW -/

theorem updateOp_split (a : Nat) (old v : Byte) :
    updateOp true a old v =
      if v = 0xFF#8 then .erase a else if old &&& v = v then .write a v else .eraseWrite a v := rfl

theorem updateOp_unsplit (a : Nat) (old v : Byte) : updateOp false a old v = .eraseWrite a v := by
  unfold updateOp
  split
  · next hv => exact hv ▸ rfl
  · exact ite_self _

theorem degraded_eraseOp (a : Nat) : eraseOp false a = (eraseOp true a).degraded := rfl

theorem degraded_clearOp (a : Nat) (r : Byte) : clearOp false a r = (clearOp true a r).degraded := rfl

theorem degraded_updateOp (a : Nat) (old v : Byte) : updateOp false a old v = (updateOp true a old v).degraded := by
  rw [updateOp_unsplit, updateOp_split]
  split
  · next hv => exact hv ▸ rfl
  · split <;> rfl

/-! ### The command of a mutator -/

/-- The command of the mutator `m`: it checks its address, then answers the result of `m` (40_bytestore R119 to R121). -/
def execMutator (addr : Half) (m : State → State × Bool) (s : State) : Host.Outcome State Fault Refusal :=
  if nvValid addr s then complete (m s).2 0#16 (m s).1 else raiseAddress s

theorem exec_bsUpdate (addr : Half) (value : Byte) (s : State) :
    exec (.bsUpdate addr value) s = execMutator addr (smartUpdate addr.toNat value) s := rfl

theorem exec_bsErase (addr : Half) (s : State) :
    exec (.bsErase addr) s = execMutator addr (smartErase addr.toNat) s := rfl

theorem exec_bsClrbits (addr : Half) (mask : Byte) (s : State) :
    exec (.bsClrbits addr mask) s = execMutator addr (smartClearBits addr.toNat mask) s := rfl

theorem execMutator_next {addr : Half} {m : State → State × Bool} {s t : State} :
    execMutator addr m s = .next t ↔ nvValid addr s ∧ t = respond .ok (m s).2 0#16 (m s).1 := checked_next

/-- On a valid address the command leaves what its mutator leaves: every other cell, the counters, the buffer and the
control state are as before. -/
theorem Mutated.execMutator_completes {addr : Half} {new : Byte} {op : NvOp} {m : State → State × Bool} {s : State}
    (h : Mutated addr.toNat new op s (m s)) (hvalid : nvValid addr s) :
    ∃ t, execMutator addr m s = .next t ∧ nvRead addr.toNat t = new ∧
      answered t (decide (nvRead addr.toNat s ≠ new)) 0#16 ∧
      t.nvlog = s.nvlog ++ (if nvRead addr.toNat s = new then [] else [op]) ∧
      (∀ a, a ≠ addr.toNat → nvRead a t = nvRead a s) ∧ clockFrame s t ∧ obFrame s t ∧ controlFrame s t := by
  have honly := h.onlyNv
  refine ⟨_, execMutator_next.2 ⟨hvalid, rfl⟩, h.cell, h.flag ▸ rfl, h.log, h.others,
    ⟨honly.secondsLT, honly.minutesLT, honly.daysSinceEpoch⟩, fun o => ?_,
    honly.config, honly.activity, honly.inputs⟩
  rw [obRead_respond, obRead, honly.ob, obRead]

/-- A command that completes with SPLIT_EW true completes without it, with the same response and cells and the degraded
log, if its mutator has the same result and the degraded operation (40_bytestore R123). -/
theorem execMutator_degraded {addr : Half} {m : State → State × Bool} {s t : State} (new : Byte) (op : Bool → NvOp)
    (h : ∀ b, Mutated addr.toNat new (op b) (withSplitEw b s) (m (withSplitEw b s)))
    (hop : op false = (op true).degraded) (ht : execMutator addr m (withSplitEw true s) = .next t) :
    ∃ u ops, execMutator addr m (withSplitEw false s) = .next u ∧ u.response = t.response ∧
      (∀ a, nvRead a u = nvRead a t) ∧ t.nvlog = s.nvlog ++ ops ∧ u.nvlog = s.nvlog ++ ops.map NvOp.degraded := by
  obtain ⟨hvalid, rfl⟩ := execMutator_next.1 ht
  refine ⟨_, _, execMutator_next.2 ⟨hvalid, rfl⟩, ?_, fun a => ?_, (h true).log, ?_⟩
  · rw [respond_response, respond_response, (h true).flag, (h false).flag]
    rfl
  · by_cases ha : a = addr.toNat
    · exact ha ▸ (h false).cell.trans (h true).cell.symm
    · exact ((h false).others a ha).trans ((h true).others a ha).symm
  · refine (h false).log.trans (congrArg (s.nvlog ++ ·) ?_)
    rw [hop, apply_ite (List.map NvOp.degraded)]
    rfl

/-! ### The statements -/

/-- Settles O14: the command only answers. -/
theorem bsReadAnswersCell : Obligations.BsReadAnswersCell := fun _ _ hvalid =>
  ⟨_, checked_next.2 ⟨hvalid, rfl⟩, rfl, ⟨rfl, rfl, rfl⟩, ⟨fun _ => rfl, rfl⟩, fun _ => rfl, rfl, rfl, rfl⟩

/-- Settles O15: from what smartUpdate does. -/
theorem bsUpdateReachesTarget : Obligations.BsUpdateReachesTarget := by
  intro addr value s hvalid
  obtain ⟨t, ht, hcell, hanswer, -, hframes⟩ := (smartUpdate_spec addr.toNat value s).execMutator_completes hvalid
  exact ⟨t, ht, hcell, hanswer, hframes⟩

/-- Settles O16: the one operation smartUpdate logs, by the value of SPLIT_EW. -/
theorem bsUpdateOperationByCase : Obligations.BsUpdateOperationByCase := by
  intro addr value s t ht
  rw [exec_bsUpdate, execMutator_next] at ht
  obtain ⟨-, rfl⟩ := ht
  rw [respond_nvlog, (smartUpdate_spec addr.toNat value s).log]
  cases s.config.splitEw with
  | false => rw [updateOp_unsplit, if_pos rfl]
  | true => simp only [updateOp_split, apply_ite (fun op => [op]), Bool.true_eq_false, if_false]

/-- Settles O17: from what smartErase does. -/
theorem bsEraseLeavesAllOnes : Obligations.BsEraseLeavesAllOnes := by
  intro addr s hvalid
  obtain ⟨t, ht, hcell, hanswer, hlog, hframes⟩ := (smartErase_spec addr.toNat s).execMutator_completes hvalid
  rw [eraseOp, apply_ite (fun op => [op])] at hlog
  exact ⟨t, ht, hcell, hanswer, hlog, hframes⟩

/-- Settles O18: from what smartClearBits does. -/
theorem bsClrbitsKeepsMaskedBits : Obligations.BsClrbitsKeepsMaskedBits := by
  intro addr mask s hvalid
  obtain ⟨t, ht, hcell, hanswer, hlog, hframes⟩ := (smartClearBits_spec addr.toNat mask s).execMutator_completes hvalid
  simp only [clearOp, apply_ite (fun op => [op]), eq_comm (a := nvRead addr.toNat s), ne_eq] at hanswer hlog
  exact ⟨t, ht, hcell, hcell ▸ and_and_not_self .., hanswer, hlog, hframes⟩

/-- Settles O19: the two mutators are one. -/
theorem updateToAllOnesIsErase : Obligations.UpdateToAllOnesIsErase := by
  intro addr s
  have hsame : smartUpdate addr.toNat 0xFF#8 = smartErase addr.toNat := funext (smartUpdate_allOnes addr.toNat)
  rw [exec_bsUpdate, exec_bsErase, hsame]

/-- Settles O21: each mutator has the same result with either value of SPLIT_EW, and the degraded operation. -/
theorem degradedModeKeepsContract : Obligations.DegradedModeKeepsContract := by
  intro addr v i s t hi ht
  rcases hi with rfl | rfl | rfl | rfl
  · obtain ⟨hvalid, rfl⟩ := checked_next.1 ht
    exact ⟨_, [], checked_next.2 ⟨hvalid, rfl⟩, rfl, fun _ => rfl, (List.append_nil _).symm, (List.append_nil _).symm⟩
  · exact execMutator_degraded v (updateOp · addr.toNat (nvRead addr.toNat s) v)
      (fun b => smartUpdate_spec addr.toNat v (withSplitEw b s)) (degraded_updateOp ..) ht
  · exact execMutator_degraded 0xFF#8 (eraseOp · addr.toNat)
      (fun b => smartErase_spec addr.toNat (withSplitEw b s)) (degraded_eraseOp _) ht
  · exact execMutator_degraded (nvRead addr.toNat s &&& v) (clearOp · addr.toNat (nvRead addr.toNat s &&& v))
      (fun b => smartClearBits_spec addr.toNat v (withSplitEw b s)) (degraded_clearOp ..) ht

/-- Settles O24: the response leaves the log the mutators leave. -/
theorem eraseOnlyWhenBitMustRise : Obligations.EraseOnlyWhenBitMustRise := by
  refine fun addr v s t hsplit => ⟨fun ht herase => ?_, fun ht a => ?_⟩
  · rw [exec_bsUpdate, execMutator_next] at ht
    obtain ⟨-, rfl⟩ := ht
    exact bit_rises_of_eraseCount_smartUpdate hsplit herase
  · rw [exec_bsClrbits, execMutator_next] at ht
    obtain ⟨-, rfl⟩ := ht
    exact eraseCount_smartClearBits hsplit v a

/-- Settles O59: the laws in the order of R122, from what each mutator does. -/
theorem mutatorLaws : Obligations.MutatorLaws := by
  intro a v mask s
  have hu := smartUpdate_spec a v s
  have he := smartErase_spec a s
  have hc := smartClearBits_spec a mask s
  refine ⟨⟨hu.cell, hu.flag⟩, ⟨he.cell, he.flag⟩, ⟨hc.cell, ?_⟩, smartUpdate_allOnes a s, ?_, ?_, fun hsplit =>
    ⟨fun ⟨_, herase⟩ => bit_rises_of_eraseCount_smartUpdate hsplit herase, eraseCount_smartClearBits hsplit mask⟩⟩
  · rw [hc.flag, decide_eq_decide, ne_comm]
  · rw [hc.cell, and_and_not_self]
  · rintro r (rfl | rfl | rfl)
    · exact ⟨hu.others, hu.log_growth⟩
    · exact ⟨he.others, he.log_growth⟩
    · exact ⟨hc.others, hc.log_growth⟩

end Sys2Proof.Machine


/-! SUPPORT. The clock as it runs: the carries of one tick (41_rtc R140), and the minute and the day that a run of pulses
makes of them (R141). -/

namespace Sys2Proof.Machine

/-! ### The carries of one tick -/

theorem tick_of_le {s : State} (h : s.secondsLT.toNat + s.config.tickLen ≤ 59) :
    tick s = { s with secondsLT := BitVec.ofNat 8 (s.secondsLT.toNat + s.config.tickLen) } :=
  if_neg (Nat.not_lt.2 h)

theorem carryMinute_of_le {s : State} (h : s.minutesLT.toNat + 1 ≤ 1439) :
    carryMinute s = { s with minutesLT := BitVec.ofNat 16 (s.minutesLT.toNat + 1) } := if_neg (Nat.not_lt.2 h)

theorem carryMinute_of_wrap {s : State} (h : 1439 < s.minutesLT.toNat + 1) :
    carryMinute s = carryDay { s with minutesLT := 0#16 } := if_pos h

theorem carryMinute_config (s : State) : (carryMinute s).config = s.config := by
  unfold carryMinute; split <;> rfl

theorem carryMinute_secondsLT (s : State) : (carryMinute s).secondsLT = s.secondsLT := by
  unfold carryMinute; split <;> rfl

/-- The carry out of the seconds neither reads nor writes the seconds. -/
theorem carryMinute_with_secondsLT (b : Byte) (s : State) :
    carryMinute { s with secondsLT := b } = { carryMinute s with secondsLT := b } := by
  unfold carryMinute; split <;> rfl

theorem tick_of_carry {s : State} (h : 59 < s.secondsLT.toNat + s.config.tickLen) :
    tick s = { carryMinute s with secondsLT := 0#8 } :=
  (if_pos h).trans (carryMinute_with_secondsLT 0#8 s)

/-- Settles O25: the sum stays below the carry, or the carry falls in the day, or it ends the day. -/
theorem tickAdvancesClock : Obligations.TickAdvancesClock := by
  intro s
  refine ⟨tick s, rfl, fun hle => ?_, fun hcarry hle => ?_, fun hcarry hwrap => ?_,
    ⟨fun a => nvRead_tick a s, tick_nvlog s⟩, fun o => obRead_tick o s,
    ⟨tick_config s, tick_activity s, tick_inputs s⟩, tick_response s⟩
  · rw [tick_of_le hle]
    exact ⟨Nat.mod_eq_of_lt (by omega), rfl, rfl⟩
  · rw [tick_of_carry hcarry, carryMinute_of_le hle]
    exact ⟨rfl, Nat.mod_eq_of_lt (by omega), rfl⟩
  · rw [tick_of_carry hcarry, carryMinute_of_wrap hwrap]
    exact ⟨rfl, rfl, Nat.mod_eq_of_lt (Nat.mod_lt _ (by decide))⟩

/-! ### Runs of pulses -/

/-- A run goes on from the state its first step answers. -/
theorem run_succ {k : Nat} {s t : State} (h : step s = .next t) :
    Host.Core.run core (k + 1) s = Host.Core.run core k t := by
  have hstep : core.step s = .next t := h
  simp only [Host.Core.run, hstep]

theorem tick_withInputs (rest : List Event) (s : State) : tick (withInputs rest s) = withInputs rest (tick s) :=
  (tick_of_clockFrame (s := s) (t := withInputs rest s) ⟨rfl, rfl, rfl⟩ rfl).trans
    (congrArg (withInputs rest) (tick_eq s).symm)

theorem ticks_withInputs (k : Nat) (rest : List Event) (s : State) :
    tick^[k] (withInputs rest s) = withInputs rest (tick^[k] s) :=
  Function.Commute.iterate_left (tick_withInputs rest) k s

/-- With no command running, a pulse at the head of the events is a tick. -/
theorem step_pulse {s : State} {rest : List Event} (ha : s.activity = .idle) (hi : s.inputs = .port .pulse :: rest) :
    step s = .next (withInputs rest (tick s)) :=
  (step_port s .pulse rest ha hi).trans (congrArg Host.Outcome.next (tick_withInputs rest s))

/-- With no command running, a run through `k` pulses is `k` ticks. -/
theorem run_pulses (k : Nat) (rest : List Event) (s : State) (ha : s.activity = .idle)
    (hi : s.inputs = List.replicate k (.port .pulse) ++ rest) :
    Host.Core.run core k s = .next (withInputs rest (tick^[k] s)) := by
  induction k generalizing s with
  | zero => exact congrArg Host.Outcome.next (congrArg (fun events => { s with inputs := events }) hi)
  | succ k ih =>
    have hrun := ih (withInputs (List.replicate k (.port .pulse) ++ rest) (tick s)) ((tick_activity s).trans ha) rfl
    rw [ticks_withInputs, ← Function.iterate_succ_apply] at hrun
    exact (run_succ (step_pulse ha hi)).trans hrun

/-- Ticks that end before the carry only add their seconds. -/
theorem ticks_of_le {k : Nat} {s : State} (h : s.secondsLT.toNat + k * s.config.tickLen ≤ 59) :
    tick^[k] s = { s with secondsLT := BitVec.ofNat 8 (s.secondsLT.toNat + k * s.config.tickLen) } := by
  induction k with
  | zero => simp
  | succ k ih =>
    rw [Nat.succ_mul] at h ⊢
    rw [Function.iterate_succ_apply', ih (by omega)]
    have hval : (BitVec.ofNat 8 (s.secondsLT.toNat + k * s.config.tickLen)).toNat =
      s.secondsLT.toNat + k * s.config.tickLen := Nat.mod_eq_of_lt (by omega)
    rw [tick_of_le (by simpa only [hval, Nat.add_assoc] using h)]
    simp only [hval, Nat.add_assoc]

/-- `60/TICK_LEN` ticks from second 0 are one carry out of the seconds (41_rtc R141). -/
theorem minute_of_ticks {s : State} (hlen : s.config.tickLen = 1 ∨ s.config.tickLen = 2) (hsec : s.secondsLT = 0#8) :
    tick^[60 / s.config.tickLen] s = carryMinute s := by
  obtain ⟨k, hk, hle⟩ : ∃ k, 60 / s.config.tickLen = k + 1 ∧ k * s.config.tickLen + s.config.tickLen = 60 := by
    rcases hlen with h | h <;> rw [h]
    · exact ⟨59, rfl, rfl⟩
    · exact ⟨29, rfl, rfl⟩
  have hzero : s.secondsLT.toNat = 0 := congrArg BitVec.toNat hsec
  have hval : (BitVec.ofNat 8 (s.secondsLT.toNat + k * s.config.tickLen)).toNat =
    s.secondsLT.toNat + k * s.config.tickLen := Nat.mod_eq_of_lt (by omega)
  rw [hk, Function.iterate_succ_apply', ticks_of_le (by omega), tick_of_carry (by simp only [hval]; omega)]
  simp only [carryMinute_with_secondsLT, ← hsec, ← carryMinute_secondsLT s]

/-- So `60/TICK_LEN` ticks taken `n` times are `n` carries. -/
theorem minutes_of_ticks (n : Nat) {s : State} (hlen : s.config.tickLen = 1 ∨ s.config.tickLen = 2)
    (hsec : s.secondsLT = 0#8) : tick^[60 / s.config.tickLen * n] s = carryMinute^[n] s := by
  induction n generalizing s with
  | zero => rfl
  | succ n ih =>
    have hcfg := carryMinute_config s
    rw [Nat.mul_succ, Function.iterate_add_apply, minute_of_ticks hlen hsec, Function.iterate_succ_apply, ← hcfg]
    exact ih (hcfg ▸ hlen) ((carryMinute_secondsLT s).trans hsec)

/-- Minute carries that end before midnight only add their minutes. -/
theorem carryMinutes_of_le {n : Nat} {s : State} (h : s.minutesLT.toNat + n ≤ 1439) :
    carryMinute^[n] s = { s with minutesLT := BitVec.ofNat 16 (s.minutesLT.toNat + n) } := by
  induction n with
  | zero => simp
  | succ n ih =>
    rw [Function.iterate_succ_apply', ih (by omega)]
    have hval : (BitVec.ofNat 16 (s.minutesLT.toNat + n)).toNat = s.minutesLT.toNat + n :=
      Nat.mod_eq_of_lt (by omega)
    rw [carryMinute_of_le (by simpa only [hval, Nat.add_assoc] using h)]
    simp only [hval, Nat.add_assoc]

/-- 1440 carries from minute 0 are the carry out of the minutes (41_rtc R141). -/
theorem day_of_carryMinutes {s : State} (hmin : s.minutesLT = 0#16) : carryMinute^[1439 + 1] s = carryDay s := by
  have hzero : s.minutesLT.toNat = 0 := congrArg BitVec.toNat hmin
  rw [Function.iterate_succ_apply', carryMinutes_of_le (by omega), carryMinute_of_wrap (by simp [hzero]), carryDay,
    carryDay, hmin]

/-- Settles O26: the pulses of a minute are one carry out of the seconds, and those of a day 1440 of them. -/
theorem dayOfTicksAdvancesOneDay : Obligations.DayOfTicksAdvancesOneDay := by
  refine fun s rest hlen ha hsec => ⟨fun hle hi => ?_, fun hmin hi => ?_⟩
  · refine (run_pulses _ rest s ha hi).trans (congrArg Host.Outcome.next ?_)
    rw [minute_of_ticks hlen hsec]
    by_cases hwrap : s.minutesLT.toNat = 1439
    · rw [carryMinute_of_wrap (by omega), if_pos hwrap, if_pos hwrap]
      rfl
    · rw [carryMinute_of_le (by omega), if_neg hwrap, if_neg hwrap, BitVec.ofNat_toNat, BitVec.setWidth_eq]
      rfl
  · refine (run_pulses _ rest s ha hi).trans (congrArg Host.Outcome.next ?_)
    have hday : 86400 / s.config.tickLen = 60 / s.config.tickLen * (1439 + 1) := by
      rcases hlen with h | h <;> rw [h]
    rw [hday, minutes_of_ticks _ hlen hsec, day_of_carryMinutes hmin]
    rfl

end Sys2Proof.Machine


/-! SUPPORT. The setter as it runs (41_rtc R143 to R145): the rejected command, step B with or without a tick before it,
and the accessors after it. -/

namespace Sys2Proof.Machine

/-! ### The setter -/

/-- A rejected `RTC.SETHM` only answers (41_rtc R143). -/
theorem exec_rtcSethm_rejected {hours minutes : Byte} (s : State) (h : 23 < hours.toNat ∨ 59 < minutes.toNat) :
    exec (.rtcSethm hours minutes) s = .next (respond .ok false 0#16 s) :=
  if_pos h

/-- Settles O28: the rejected setter only answers. -/
theorem sethmRejectsInvalidTime : Obligations.SethmRejectsInvalidTime :=
  fun _ _ s h => ⟨_, exec_rtcSethm_rejected s h, rfl, ⟨rfl, rfl, rfl⟩, ⟨fun _ => rfl, rfl⟩, fun _ => rfl, rfl, rfl, rfl⟩

/-- Settles O29: step B is persist on the block with the port idle, then the answer. -/
theorem setterStepBPersistsAndAnswers : Obligations.SetterStepBPersistsAndAnswers := by
  intro s hcfg ha hi
  have honly := persist_onlyNv { s with activity := .idle }
  obtain ⟨hhhq, hdays, hothers⟩ := persist_cells { s with activity := .idle } hcfg
  have hlow := storedDays_low (persist { s with activity := .idle })
  have hhigh := storedDays_high (persist { s with activity := .idle })
  rw [hdays, honly.config] at hlow hhigh
  exact ⟨_, step_setter s ha hi, rfl, honly.activity, hhhq, hlow.symm, hhigh.symm, hothers,
    ⟨honly.secondsLT, honly.minutesLT, honly.daysSinceEpoch⟩, fun o => congrArg (Memory.read obCleared o) honly.ob,
    honly.config, honly.inputs⟩

/-- Settles O31: the tick is a step, and step B then persists the clock it finds. -/
theorem tickBetweenSetterStepsIsPersisted : Obligations.TickBetweenSetterStepsIsPersisted := by
  intro s rest hcfg ha hi hrest
  have hinputs : ∀ r, (tick (withInputs rest s)).inputs ≠ .tickInCommand :: r :=
    fun r h => hrest r ((tick_inputs (withInputs rest s)).symm.trans h)
  obtain ⟨u, hstepB, hanswer, -, hhhq, -, -, -, hclock, -⟩ := setterStepBPersistsAndAnswers (tick (withInputs rest s))
    ((tick_config (withInputs rest s)).symm ▸ hcfg) ((tick_activity (withInputs rest s)).trans ha) hinputs
  rw [tick_config] at hhhq
  exact ⟨_, u, rfl, step_tickInCommand s rest hi, hstepB, hhhq, hanswer, hclock⟩

/-- With no command running, an encoded instruction at the head of the events is run. -/
theorem step_encode {s : State} {i : Instr} {rest : List Event} (ha : s.activity = .idle)
    (hi : s.inputs = .port (encode i) :: rest) : step s = exec i (withInputs rest s) :=
  stepRunsDecodedInstruction s _ rest i ha hi (decode_encode i)

theorem step_gethours {s : State} {rest : List Event} (ha : s.activity = .idle)
    (hi : s.inputs = .port (encode .rtcGethours) :: rest) :
    step s = .next (respond .ok false (BitVec.ofNat 16 (s.minutesLT.toNat / 60)) (withInputs rest s)) :=
  step_encode ha hi

theorem step_getmins {s : State} {rest : List Event} (ha : s.activity = .idle)
    (hi : s.inputs = .port (encode .rtcGetmins) :: rest) :
    step s = .next (respond .ok false (BitVec.ofNat 16 (s.minutesLT.toNat % 60)) (withInputs rest s)) :=
  step_encode ha hi

/-- An accepted `RTC.SETHM` with a port event after it: its two steps answer FLAG 1 and leave the clock at the time given
(41_rtc R144). -/
theorem run_sethm {hours minutes : Byte} {s : State} {p : PortWord} {rest : List Event} (hh : hours.toNat ≤ 23)
    (hm : minutes.toNat ≤ 59) (ha : s.activity = .idle)
    (hi : s.inputs = .port (encode (.rtcSethm hours minutes)) :: .port p :: rest) :
    ∃ t : State, (∀ k, Host.Core.run core (k + 2) s = Host.Core.run core k t) ∧ answered t true 0#16 ∧
      t.activity = .idle ∧ t.inputs = .port p :: rest ∧ t.minutesLT.toNat = 60 * hours.toNat + minutes.toNat ∧
      t.secondsLT = s.secondsLT ∧ t.daysSinceEpoch = s.daysSinceEpoch := by
  have hstepA := (step_encode ha hi).trans (exec_rtcSethm_accepted _ hh hm)
  have hstepB := step_setter (setterStepA hours minutes (withInputs (.port p :: rest) s)) rfl nofun
  have honly := persist_onlyNv { setterStepA hours minutes (withInputs (.port p :: rest) s) with activity := .idle }
  exact ⟨_, fun k => (run_succ hstepA).trans (run_succ hstepB), rfl, honly.activity, honly.inputs,
    (congrArg BitVec.toNat honly.minutesLT).trans (setterStepA_minutesLT_toNat s hh hm), honly.secondsLT,
    honly.daysSinceEpoch⟩

/-- A byte's number in 16 bits is the byte zero-extended. -/
theorem ofNat_eq_zeroExtend {n : Nat} {b : Byte} (h : n = b.toNat) : BitVec.ofNat 16 n = b.zeroExtend 16 := by
  rw [h, BitVec.ofNat_toNat]

/-- Settles O30: after the setter's two steps each accessor is one step that only answers. -/
theorem sethmThenAccessorsGiveThatTime : Obligations.SethmThenAccessorsGiveThatTime := by
  intro hours minutes s rest hh hm ha hi
  obtain ⟨t, hrun, hanswer, hta, hti, hmin, hsec, hday⟩ := run_sethm hh hm ha hi
  have hhours := step_gethours hta hti
  refine ⟨t, _, _, hrun 0, hanswer, (hrun 1).trans (run_succ hhours), ?_,
    (hrun 2).trans ((run_succ hhours).trans (run_succ (step_getmins hta rfl))), ?_, hsec, hday⟩
  · rw [answered, respond_response, ofNat_eq_zeroExtend (b := hours) (by omega)]
  · rw [answered, respond_response, respond_minutesLT, withInputs_minutesLT,
      ofNat_eq_zeroExtend (b := minutes) (by omega)]

end Sys2Proof.Machine


/-! SUPPORT. Restore reads back what persist stored: which bytes decode and to what (41_rtc R149), and what restore takes
from the cells (R150, R158). -/

namespace Sys2Proof.Machine

/-! ### The stored byte -/

/-- The byte of hour `h` and quarter `q` (41_rtc R146); what hhq_encode gives is `hhqEncode_eq_hhqByte`. -/
def hhqByte (h q : Nat) : Byte := (BitVec.ofNat 8 h <<< 3) ||| quarterCode q

theorem hhqEncode_eq_hhqByte {m : Half} (h : m.toNat ≤ 1439) :
    hhqEncode m = hhqByte (m.toNat / 60) (m.toNat % 60 / 15) := hhqEncode_of_le m h

/-- A byte of a legal hour and quarter decodes to the start of its quarter-hour plus the bias (41_rtc R149). -/
theorem hhqDecode_of_toNat {bias h q : Nat} {b : Byte} (hh : h ≤ 23) (hq : q ≤ 3)
    (hb : b.toNat = 8 * h + [7, 6, 4, 0].getD q 0) : hhqDecode bias b = some (60 * h + 15 * q + bias) := by
  have hbyte : b = hhqByte h q :=
    BitVec.eq_of_toNat_eq (hb.trans ((hhq_toNat h (by omega) q (by omega)).trans (by omega)).symm)
  obtain ⟨hhour, hquarter⟩ := hhq_fields h (by omega) q (by omega)
  rw [hbyte]
  unfold hhqDecode hhqByte
  simp only [hhour, hquarter, Option.map_some]
  rw [if_neg (by omega), Nat.mul_comm h, Nat.mul_comm q]

/-- The legal codes are those of the four quarters (41_rtc R149). -/
theorem quarterOfCode_eq_some : ∀ c : BitVec 3, ∀ q ∈ quarterOfCode c, q ≤ 3 ∧ c.toNat = [7, 6, 4, 0].getD q 0 := by
  decide

/-- A byte that decodes is that of a legal hour and quarter (41_rtc R149). -/
theorem toNat_of_hhqDecode {bias r : Nat} {b : Byte} (hr : hhqDecode bias b = some r) :
    ∃ h q, h ≤ 23 ∧ q ≤ 3 ∧ b.toNat = 8 * h + [7, 6, 4, 0].getD q 0 := by
  unfold hhqDecode at hr
  simp only at hr
  split at hr
  · exact nomatch hr
  · next hh =>
    obtain ⟨q, hq, -⟩ := Option.map_eq_some_iff.1 hr
    obtain ⟨hle, hcode⟩ := quarterOfCode_eq_some _ q hq
    refine ⟨_, q, Nat.le_of_not_lt hh, hle, ?_⟩
    rw [← hcode, BitVec.extractLsb'_toNat, BitVec.extractLsb'_toNat, Nat.shiftRight_eq_div_pow]
    omega

/-- Restore on a valid byte takes its minute, and the day as restoreDays does (41_rtc R150). -/
theorem restore_of_valid {s : State} {r : Nat}
    (h : hhqDecode s.config.restoreBias (nvRead s.config.nvAddrHhq s) = some r) :
    restore s = ({ restoreDays s with minutesLT := BitVec.ofNat 16 r }, true) := by
  rw [restore, h]

/-- Restore on an invalid byte is restoreDays (41_rtc R150). -/
theorem restore_of_invalid {s : State} (h : hhqDecode s.config.restoreBias (nvRead s.config.nvAddrHhq s) = none) :
    restore s = (restoreDays s, false) := by
  rw [restore, h]

/-- Restore on the byte of a minute of the day takes the start of its quarter-hour plus the bias (41_rtc R158). -/
theorem restore_of_encoded {s : State} {m : Half} (hm : m.toNat ≤ 1439)
    (h : nvRead s.config.nvAddrHhq s = hhqEncode m) :
    restore s =
      ({ restoreDays s with minutesLT := BitVec.ofNat 16 (m.toNat / 15 * 15 + s.config.restoreBias) }, true) :=
  restore_of_valid (by rw [h, hhqDecode_hhqEncode _ _ hm])

theorem restore_daysSinceEpoch (s : State) :
    (restore s).1.daysSinceEpoch = if storedDays s = 0xFFFF#16 then s.daysSinceEpoch else storedDays s := by
  rw [restore_eq]

theorem restoreDays_minutesLT (s : State) : (restoreDays s).minutesLT = s.minutesLT := by
  unfold restoreDays; split <;> rfl

/-- Restore touches neither the seconds nor the memories nor the port (41_rtc R150). -/
theorem restore_frame (s : State) :
    (restore s).1.secondsLT = s.secondsLT ∧ nvFrame s (restore s).1 ∧ obFrame s (restore s).1 ∧
      controlFrame s (restore s).1 := by
  rw [restore_eq]
  exact ⟨rfl, ⟨fun _ => rfl, rfl⟩, fun _ => rfl, rfl, rfl, rfl⟩

/-- Settles O34: the day by the sentinel, the minute by whether the byte decodes. -/
theorem restoreReadsStoredTime : Obligations.RestoreReadsStoredTime := by
  intro s
  refine ⟨respond .ok (restore s).2 0#16 (restore s).1, rfl, fun hday => ?_, fun hday => ?_,
    fun h q hh hq hb => ?_, fun hb => ?_, restore_frame s⟩
  · exact (restore_daysSinceEpoch s).trans (if_pos hday)
  · exact (restore_daysSinceEpoch s).trans (if_neg hday)
  · rw [restore_of_valid (hhqDecode_of_toNat hh hq hb)]
    exact ⟨rfl, rfl⟩
  · cases hr : hhqDecode s.config.restoreBias (nvRead s.config.nvAddrHhq s) with
    | none =>
      rw [restore_of_invalid hr]
      exact ⟨restoreDays_minutesLT s, rfl⟩
    | some r =>
      obtain ⟨h, q, hh, hq, hbyte⟩ := toNat_of_hhqDecode hr
      exact absurd hbyte (hb h q hh hq)

/-- Settles O35: the cells hold the encoded minute and the day; restore takes the start of the quarter plus the bias, and
a stored day that equals the erased value leaves the counter at that very value. -/
theorem persistThenRestoreSameQuarter : Obligations.PersistThenRestoreSameQuarter := by
  intro s hcfg hmin
  have honly := persist_onlyNv s
  obtain ⟨hhhq, hdays, -⟩ := persist_cells s hcfg
  obtain ⟨-, -, -, -, -, -, -, hbias⟩ := hcfg
  obtain ⟨t, ht⟩ : ∃ t, t = respond .ok false 0#16 (persist s) := ⟨_, rfl⟩
  have htcfg : t.config = s.config := ht ▸ honly.config
  have hrestore := restore_of_encoded (s := t) hmin (by rw [htcfg, ht, nvRead_respond, hhhq])
  rw [htcfg] at hrestore
  have hminute : (BitVec.ofNat 16 (s.minutesLT.toNat / 15 * 15 + s.config.restoreBias)).toNat =
      s.minutesLT.toNat / 15 * 15 + s.config.restoreBias := Nat.mod_eq_of_lt (by omega)
  have hday : (restore t).1.daysSinceEpoch = s.daysSinceEpoch := by
    rw [restore_daysSinceEpoch, ht]
    exact (ite_eq_right_iff.2 fun _ => honly.daysSinceEpoch.trans hdays.symm).trans hdays
  obtain ⟨hsec, -⟩ := restore_frame t
  refine ⟨t, respond .ok (restore t).2 0#16 (restore t).1, congrArg _ ht.symm, rfl, ?_, ?_, ?_, hday,
    hsec.trans (ht ▸ honly.secondsLT)⟩ <;> rw [hrestore]
  · rfl
  · exact hminute
  · exact (congrArg (· / 15) hminute).trans (by omega)

end Sys2Proof.Machine


/-! SUPPORT. What persist adds to the log (41_rtc R147), and the path of the HH:quarter byte through the day (R159). -/

namespace Sys2Proof.Machine

/-! ### Operations on other cells -/

/-- Operations none of which is on the cell `a`. -/
def NoneOn (a : Nat) (ops : List NvOp) : Prop := eraseCount a ops = 0 ∧ writeCount a ops = 0

theorem NoneOn.append {a : Nat} {xs ys : List NvOp} (hx : NoneOn a xs) (hy : NoneOn a ys) : NoneOn a (xs ++ ys) := by
  obtain ⟨hxe, hxw⟩ := hx
  obtain ⟨hye, hyw⟩ := hy
  exact ⟨by rw [eraseCount, List.countP_append]; exact Nat.add_eq_zero_iff.2 ⟨hxe, hye⟩,
    by rw [writeCount, List.countP_append]; exact Nat.add_eq_zero_iff.2 ⟨hxw, hyw⟩⟩

/-- smartUpdate's operation is on its own cell. -/
theorem noneOn_updateOp {a b : Nat} (h : b ≠ a) (split : Bool) (old v : Byte) : NoneOn a [updateOp split b old v] := by
  unfold updateOp eraseOp clearOp
  split_ifs <;> simp [NoneOn, eraseCount, writeCount, h]

theorem smartUpdate_log_other {a b : Nat} (h : b ≠ a) (v : Byte) (s : State) :
    ∃ ops, (smartUpdate b v s).1.nvlog = s.nvlog ++ ops ∧ NoneOn a ops := by
  refine ⟨_, (smartUpdate_spec b v s).log, ?_⟩
  split
  · exact ⟨rfl, rfl⟩
  · exact noneOn_updateOp h ..

/-! ### The log of persist -/

/-- Persist logs the operation on the HH:quarter cell, then those on the day cells, none when the day was already stored
(41_rtc R147). -/
theorem persist_log {s : State} (hcfg : s.config.wf) :
    ∃ days, (persist s).nvlog = s.nvlog ++ (if nvRead s.config.nvAddrHhq s = hhqEncode s.minutesLT then [] else
        [updateOp s.config.splitEw s.config.nvAddrHhq (nvRead s.config.nvAddrHhq s) (hhqEncode s.minutesLT)]) ++ days ∧
      (storedDays s = s.daysSinceEpoch → days = []) ∧ NoneOn s.config.nvAddrHhq days := by
  obtain ⟨hne, hne'⟩ := wf_hhq_ne hcfg
  have h1 := smartUpdate_spec s.config.nvAddrHhq (hhqEncode s.minutesLT) s
  have hstored : storedDays (smartUpdate s.config.nvAddrHhq (hhqEncode s.minutesLT) s).1 = storedDays s :=
    storedDays_congr h1.onlyNv.config (h1.others _ hne.symm) (h1.others _ hne'.symm)
  unfold persist
  simp only [hstored]
  rw [← h1.log]
  split
  · exact ⟨[], (List.append_nil _).symm, fun _ => rfl, rfl, rfl⟩
  · next hday =>
    unfold persistDays
    simp only [h1.onlyNv.config]
    generalize (smartUpdate s.config.nvAddrHhq (hhqEncode s.minutesLT) s).1 = s1
    obtain ⟨low, hlow, hlowOn⟩ := smartUpdate_log_other hne.symm (s.daysSinceEpoch.extractLsb' 0 8) s1
    generalize (smartUpdate s.config.nvAddrDays (s.daysSinceEpoch.extractLsb' 0 8) s1).1 = s2 at hlow ⊢
    obtain ⟨high, hhigh, hhighOn⟩ := smartUpdate_log_other hne'.symm (s.daysSinceEpoch.extractLsb' 8 8) s2
    exact ⟨low ++ high, by rw [hhigh, hlow, List.append_assoc], fun h => absurd h hday, hlowOn.append hhighOn⟩

/-! ### The path of the HH:quarter byte (41_rtc R159) -/

/-- A later quarter of the same hour only clears bits of the code. -/
theorem hhqByte_later_quarter : ∀ h < 24, ∀ q < 4, ∀ q' < q,
    hhqByte h q' ≠ hhqByte h q ∧ hhqByte h q ≠ 0xFF#8 ∧ hhqByte h q' &&& hhqByte h q = hhqByte h q := by decide

/-- The next hour needs a bit of the hour to rise. -/
theorem hhqByte_next_hour : ∀ h < 23, ∀ q < 4, ∀ q' < 4,
    hhqByte (h + 1) q ≠ 0xFF#8 ∧ hhqByte h q' &&& hhqByte (h + 1) q ≠ hhqByte (h + 1) q := by decide

theorem updateOp_write {a : Nat} {old v : Byte} (hones : v ≠ 0xFF#8) (hand : old &&& v = v) :
    updateOp true a old v = .write a v := by
  rw [updateOp_split, if_neg hones, if_pos hand]

theorem updateOp_eraseWrite {a : Nat} {old v : Byte} (hones : v ≠ 0xFF#8) (hand : old &&& v ≠ v) :
    updateOp true a old v = .eraseWrite a v := by
  rw [updateOp_split, if_neg hones, if_neg hand]

theorem ne_of_and_ne {old v : Byte} (hand : old &&& v ≠ v) : old ≠ v := fun h => hand (by rw [h, BitVec.and_self])

/-- Settles O37: the stored byte and the new one are those of their hours and quarters; a later quarter of the hour only
clears bits, the next hour and midnight need a bit to rise. -/
theorem persistPathByHour : Obligations.PersistPathByHour := by
  intro s t m hcfg hsplit hmin hm hold ht
  obtain rfl := Host.Outcome.next.inj ht
  obtain ⟨days, hlog, hstored, herase, hwrite⟩ := persist_log hcfg
  have hnew := hhqEncode_eq_hhqByte hmin
  have hm' := hhqEncode_eq_hhqByte hm
  rw [hsplit, hold] at hlog
  refine ⟨_, days, hlog, hstored, herase, hwrite, fun hsame => if_pos ?_, fun hhour hlater => ?_, fun hhour => ?_,
    fun hlast hfirst => ?_⟩
  · rw [hm', hnew, show m.toNat / 60 = s.minutesLT.toNat / 60 by omega,
      show m.toNat % 60 / 15 = s.minutesLT.toNat % 60 / 15 by omega]
  · obtain ⟨hne, hones, hand⟩ := hhqByte_later_quarter (s.minutesLT.toNat / 60) (by omega)
      (s.minutesLT.toNat % 60 / 15) (by omega) (m.toNat % 60 / 15) (by omega)
    rw [← hhour] at hm'
    rw [hm', hnew, if_neg hne, updateOp_write hones hand]
  · obtain ⟨hones, hand⟩ := hhqByte_next_hour (m.toNat / 60) (by omega)
      (s.minutesLT.toNat % 60 / 15) (by omega) (m.toNat % 60 / 15) (by omega)
    rw [← hhour] at hones hand
    rw [hm', hnew, if_neg (ne_of_and_ne hand), updateOp_eraseWrite hones hand]
  · have hold' : hhqEncode m = 0xB8#8 := by
      rw [hm', show m.toNat / 60 = 23 by omega, show m.toNat % 60 / 15 = 3 by omega]; rfl
    have hnew' : hhqEncode s.minutesLT = 0x07#8 := by
      rw [hnew, show s.minutesLT.toNat / 60 = 0 by omega, show s.minutesLT.toNat % 60 / 15 = 0 by omega]; rfl
    exact ⟨hold.trans hold', by rw [hold', hnew']; rfl⟩

end Sys2Proof.Machine

/-! SUPPORT. The cipher undone step by step: every round function is injective on 16-byte blocks (42_aes128 R183 to
R189), and so is their composition. -/

namespace Sys2Proof.Machine

/-! ### MixColumns: four applications are the identity -/

theorem byte_xor_left_comm (a b c : Byte) : a ^^^ (b ^^^ c) = b ^^^ (a ^^^ c) := by ac_rfl

/-- Multiplication by 2 in GF(2^8) is additive (42_aes128 R182). -/
theorem xtime_xor (a b : Byte) : xtime (a ^^^ b) = xtime a ^^^ xtime b := by
  simp only [xtime, BitVec.shiftLeft_xor_distrib, BitVec.getLsbD_xor]
  cases a.getLsbD 7 <;> cases b.getLsbD 7 <;> simp [BitVec.xor_assoc, byte_xor_left_comm, BitVec.xor_comm]

/-- The MixColumns byte of a column read cyclically from its position on (42_aes128 R186). -/
def mixByte (a b c d : Byte) : Byte := xtime (a ^^^ b) ^^^ (b ^^^ c ^^^ d)

theorem mixColumn_eq_mixByte (a0 a1 a2 a3 : Byte) :
    mixColumn a0 a1 a2 a3 = [mixByte a0 a1 a2 a3, mixByte a1 a2 a3 a0, mixByte a2 a3 a0 a1, mixByte a3 a0 a1 a2] := by
  simp [mixColumn, mixByte, mul2, mul3, xtime_xor, BitVec.xor_assoc, byte_xor_left_comm, BitVec.xor_comm]

/-- What MixColumns applied twice makes of a byte `a` with `c` two places on: 4 times their sum is added. -/
def mixByteSquared (a c : Byte) : Byte := a ^^^ xtime (xtime (a ^^^ c))

theorem mixByte_twice (a b c d : Byte) :
    mixByte (mixByte a b c d) (mixByte b c d a) (mixByte c d a b) (mixByte d a b c) = mixByteSquared a c := by
  simp [mixByte, mixByteSquared, xtime_xor, BitVec.xor_assoc, byte_xor_left_comm, BitVec.xor_comm]

/-- Both bytes of a pair get the same addend, so their sum, and with it the addend, is the same the second time. -/
theorem mixByteSquared_twice (a c : Byte) : mixByteSquared (mixByteSquared a c) (mixByteSquared c a) = a := by
  simp [mixByteSquared, xtime_xor, BitVec.xor_assoc, byte_xor_left_comm]

theorem mixColumns_twice_cons (a0 a1 a2 a3 : Byte) (rest : Bytes) :
    mixColumns (mixColumns (a0 :: a1 :: a2 :: a3 :: rest)) =
      [mixByteSquared a0 a2, mixByteSquared a1 a3, mixByteSquared a2 a0, mixByteSquared a3 a1] ++
        mixColumns (mixColumns rest) := by
  simp only [mixColumns, mixColumn_eq_mixByte, mixByte_twice, List.cons_append, List.nil_append]

/-- Applied four times, MixColumns gives back every column. -/
theorem mixColumns_four_times (n : Nat) (x : Bytes) (h : x.length = 4 * n) :
    mixColumns (mixColumns (mixColumns (mixColumns x))) = x := by
  induction n generalizing x with
  | zero => rw [List.eq_nil_of_length_eq_zero h]; rfl
  | succ n ih =>
    match x, h with
    | a0 :: a1 :: a2 :: a3 :: rest, h =>
      have hrest := ih rest (by simp only [List.length_cons] at h; omega)
      simp only [mixColumns_twice_cons, List.cons_append, List.nil_append, mixByteSquared_twice, hrest]

theorem mixColumns_injective {x y : Bytes} (hx : x.length = 16) (hy : y.length = 16)
    (h : mixColumns x = mixColumns y) : x = y := by
  rw [← mixColumns_four_times 4 x hx, ← mixColumns_four_times 4 y hy, h]

/-! ### The other round functions -/

/-- The inverse of the table of R183, row by row: where that table holds the byte `16 * row + column`. -/
def sboxInverseRows : List (List Byte) :=
  [ [0x52, 0x09, 0x6a, 0xd5, 0x30, 0x36, 0xa5, 0x38, 0xbf, 0x40, 0xa3, 0x9e, 0x81, 0xf3, 0xd7, 0xfb],
    [0x7c, 0xe3, 0x39, 0x82, 0x9b, 0x2f, 0xff, 0x87, 0x34, 0x8e, 0x43, 0x44, 0xc4, 0xde, 0xe9, 0xcb],
    [0x54, 0x7b, 0x94, 0x32, 0xa6, 0xc2, 0x23, 0x3d, 0xee, 0x4c, 0x95, 0x0b, 0x42, 0xfa, 0xc3, 0x4e],
    [0x08, 0x2e, 0xa1, 0x66, 0x28, 0xd9, 0x24, 0xb2, 0x76, 0x5b, 0xa2, 0x49, 0x6d, 0x8b, 0xd1, 0x25],
    [0x72, 0xf8, 0xf6, 0x64, 0x86, 0x68, 0x98, 0x16, 0xd4, 0xa4, 0x5c, 0xcc, 0x5d, 0x65, 0xb6, 0x92],
    [0x6c, 0x70, 0x48, 0x50, 0xfd, 0xed, 0xb9, 0xda, 0x5e, 0x15, 0x46, 0x57, 0xa7, 0x8d, 0x9d, 0x84],
    [0x90, 0xd8, 0xab, 0x00, 0x8c, 0xbc, 0xd3, 0x0a, 0xf7, 0xe4, 0x58, 0x05, 0xb8, 0xb3, 0x45, 0x06],
    [0xd0, 0x2c, 0x1e, 0x8f, 0xca, 0x3f, 0x0f, 0x02, 0xc1, 0xaf, 0xbd, 0x03, 0x01, 0x13, 0x8a, 0x6b],
    [0x3a, 0x91, 0x11, 0x41, 0x4f, 0x67, 0xdc, 0xea, 0x97, 0xf2, 0xcf, 0xce, 0xf0, 0xb4, 0xe6, 0x73],
    [0x96, 0xac, 0x74, 0x22, 0xe7, 0xad, 0x35, 0x85, 0xe2, 0xf9, 0x37, 0xe8, 0x1c, 0x75, 0xdf, 0x6e],
    [0x47, 0xf1, 0x1a, 0x71, 0x1d, 0x29, 0xc5, 0x89, 0x6f, 0xb7, 0x62, 0x0e, 0xaa, 0x18, 0xbe, 0x1b],
    [0xfc, 0x56, 0x3e, 0x4b, 0xc6, 0xd2, 0x79, 0x20, 0x9a, 0xdb, 0xc0, 0xfe, 0x78, 0xcd, 0x5a, 0xf4],
    [0x1f, 0xdd, 0xa8, 0x33, 0x88, 0x07, 0xc7, 0x31, 0xb1, 0x12, 0x10, 0x59, 0x27, 0x80, 0xec, 0x5f],
    [0x60, 0x51, 0x7f, 0xa9, 0x19, 0xb5, 0x4a, 0x0d, 0x2d, 0xe5, 0x7a, 0x9f, 0x93, 0xc9, 0x9c, 0xef],
    [0xa0, 0xe0, 0x3b, 0x4d, 0xae, 0x2a, 0xf5, 0xb0, 0xc8, 0xeb, 0xbb, 0x3c, 0x83, 0x53, 0x99, 0x61],
    [0x17, 0x2b, 0x04, 0x7e, 0xba, 0x77, 0xd6, 0x26, 0xe1, 0x69, 0x14, 0x63, 0x55, 0x21, 0x0c, 0x7d] ]

/-- The byte whose `SBOX` value is `b`. -/
def sboxInverse (b : Byte) : Byte := (sboxInverseRows.getD (b.toNat / 16) []).getD (b.toNat % 16) 0#8

theorem sboxInverse_sbox : ∀ a : Byte, sboxInverse (sbox a) = a := by decide

theorem subBytes_injective : Function.Injective subBytes :=
  List.map_injective_iff.2 (Function.LeftInverse.injective sboxInverse_sbox)

/-- ShiftRows reads every index below 16 (42_aes128 R185). -/
theorem mem_shiftRowsIndex : ∀ i < 16, i ∈ shiftRowsIndex := by decide

theorem shiftRows_injective {x y : Bytes} (hx : x.length = 16) (hy : y.length = 16)
    (h : shiftRows x = shiftRows y) : x = y := by
  have hget : ∀ i ∈ shiftRowsIndex, x.getD i 0#8 = y.getD i 0#8 := List.map_inj_left.1 h
  refine List.ext_getElem (hx.trans hy.symm) fun i hxi hyi => ?_
  rw [← List.getD_eq_getElem x 0#8 hxi, ← List.getD_eq_getElem y 0#8 hyi]
  exact hget i (mem_shiftRowsIndex i (by omega))

theorem addRoundKey_injective {x y rk : Bytes} (hx : x.length ≤ rk.length) (hy : y.length ≤ rk.length)
    (h : addRoundKey x rk = addRoundKey y rk) : x = y := by
  rw [← xorBytes_xorBytes x rk hx, ← xorBytes_xorBytes y rk hy]
  exact congrArg (xorBytes · rk) h

/-! ### The rounds -/

theorem aesRound_injective {key x y : Bytes} {r : Nat} (hk : key.length = 16) (hr : r ≤ 10)
    (hx : x.length = 16) (hy : y.length = 16)
    (h : aesRound (keyExpand key) x r = aesRound (keyExpand key) y r) : x = y := by
  have hrk := roundKey_length key r hk hr
  have hmixed (s : Bytes) : (mixColumns (shiftRows s)).length = 16 := mixColumns_length _ (shiftRows_length s)
  have hmix := addRoundKey_injective (by rw [hmixed, hrk]) (by rw [hmixed, hrk]) h
  have hshift := mixColumns_injective (shiftRows_length _) (shiftRows_length _) hmix
  exact subBytes_injective (shiftRows_injective (by simpa using hx) (by simpa using hy) hshift)

theorem aesRounds_foldl_length {key x : Bytes} {rs : List Nat} (hk : key.length = 16) (hrs : ∀ r ∈ rs, r ≤ 10)
    (hx : x.length = 16) : (rs.foldl (aesRound (keyExpand key)) x).length = 16 := by
  induction rs generalizing x with
  | nil => exact hx
  | cons r rs ih =>
    obtain ⟨hr, hrs⟩ := List.forall_mem_cons.1 hrs
    rw [List.foldl_cons]
    exact ih hrs (aesRound_length key x r hk hr)

theorem aesRounds_foldl_injective {key x y : Bytes} {rs : List Nat} (hk : key.length = 16) (hrs : ∀ r ∈ rs, r ≤ 10)
    (hx : x.length = 16) (hy : y.length = 16)
    (h : rs.foldl (aesRound (keyExpand key)) x = rs.foldl (aesRound (keyExpand key)) y) : x = y := by
  induction rs generalizing x y with
  | nil => exact h
  | cons r rs ih =>
    obtain ⟨hr, hrs⟩ := List.forall_mem_cons.1 hrs
    rw [List.foldl_cons, List.foldl_cons] at h
    exact aesRound_injective hk hr hx hy (ih hrs (aesRound_length key x r hk hr) (aesRound_length key y r hk hr) h)

/-- The cipher is undone from the last round to the first (42_aes128 R189). -/
theorem aesEncrypt_injective {key x y : Bytes} (hk : key.length = 16) (hx : x.length = 16) (hy : y.length = 16)
    (h : aesEncrypt key x = aesEncrypt key y) : x = y := by
  have hrounds : ∀ r ∈ List.range' 1 9, r ≤ 10 := by decide
  have hkey0 := roundKey_length key 0 hk (by decide)
  have hkey10 := roundKey_length key 10 hk (by decide)
  have hwhite (s : Bytes) (hs : s.length = 16) : (addRoundKey s (roundKey (keyExpand key) 0)).length = 16 := by
    simp [addRoundKey, hs, hkey0]
  have hfold (s : Bytes) (hs : s.length = 16) := aesRounds_foldl_length hk hrounds (hwhite s hs)
  have hshift := addRoundKey_injective (by simp [hkey10]) (by simp [hkey10]) h
  have hsub := shiftRows_injective (by simpa using hfold x hx) (by simpa using hfold y hy) hshift
  have hwhitened := aesRounds_foldl_injective hk hrounds (hwhite x hx) (hwhite y hy) (subBytes_injective hsub)
  exact addRoundKey_injective (by omega) (by omega) hwhitened

/-- Settles O50: every round function is injective on blocks, so the cipher is. -/
theorem aesIsInjectiveOnBlocks : Obligations.AesIsInjectiveOnBlocks :=
  fun key x _ hk hx hy => ⟨aesEncrypt_length key x hk, aesEncrypt_injective hk hx hy⟩

end Sys2Proof.Machine

/-! SUPPORT. Multiplication in GF(2^128) is multiplication in a field (43_gcm R201, R202): the value of an element at a
root of the field polynomial turns XOR into addition and `gfMul` into the product, and it is injective. -/

namespace Sys2Proof.Machine

/-! ### The value of an element at a root of the field polynomial -/

/-- The value of an element at `b`: its bit `x_i` is the coefficient of the power `i` (43_gcm R201). -/
def gfEval {A : Type*} [CommRing A] (b : A) (x : GfElem) : A :=
  ∑ i ∈ Finset.range 128, if x.getMsbD i then b ^ i else 0

/-- The element with the one bit `x_i`: the power `i` (43_gcm R201). -/
def gfPower (i : Nat) : GfElem := BitVec.twoPow 128 (127 - i)

/-- `b` is a root of the field polynomial (43_gcm R201). -/
def IsGfRoot {A : Type*} [CommRing A] (b : A) : Prop := 1 + b + b ^ 2 + b ^ 7 + b ^ 128 = 0

theorem getMsbD_gfPower {i : Nat} (hi : i < 128) (j : Nat) : (gfPower i).getMsbD j = decide (j = i) := by
  rw [gfPower, BitVec.getMsbD_twoPow, decide_eq_true (show 127 - i < 128 by omega), Bool.true_and]
  exact decide_eq_decide.2 (by omega)

/-- `R` is what the power 128 reduces to (43_gcm R201). -/
theorem gfR_eq : gfR = gfPower 0 ^^^ gfPower 1 ^^^ gfPower 2 ^^^ gfPower 7 := by decide

section Eval

variable {A B : Type*} [CommRing A] [CommRing B]

theorem map_gfEval (f : A →+* B) (b : A) (x : GfElem) : f (gfEval b x) = gfEval (f b) x := by
  simp only [gfEval, map_sum, apply_ite f, map_pow, map_zero]

@[simp] theorem gfEval_zero (b : A) : gfEval b 0#128 = 0 := by simp [gfEval]

theorem gfEval_gfPower (b : A) {i : Nat} (hi : i < 128) : gfEval b (gfPower i) = b ^ i := by
  simp only [gfEval, getMsbD_gfPower hi, decide_eq_true_eq, Finset.sum_ite_eq', Finset.mem_range, hi, if_true]

/-- One place toward higher powers multiplies by `b`; the bit `x_127` that falls out was the power 128. -/
theorem gfEval_ushiftRight (b : A) (v : GfElem) :
    gfEval b (v >>> 1) + (if v.getLsbD 0 then b ^ 128 else 0) = b * gfEval b v := by
  have hlast : v.getMsbD 127 = v.getLsbD 0 := by simp [BitVec.getMsbD]
  have hnext (i) (hi : i ∈ Finset.range 127) :
      (if (v >>> 1).getMsbD (i + 1) then b ^ (i + 1) else 0) = b * if v.getMsbD i then b ^ i else 0 := by
    have hi : i + 1 < 128 := by have := Finset.mem_range.1 hi; omega
    simp [BitVec.getMsbD_ushiftRight, hi, pow_succ']
  have hfirst : (v >>> 1).getMsbD 0 = false := by simp [BitVec.getMsbD_ushiftRight]
  rw [gfEval, gfEval, Finset.sum_range_succ' _ 127, Finset.sum_range_succ _ 127, Finset.sum_congr rfl hnext, hfirst,
    hlast, mul_add, Finset.mul_sum, mul_ite, mul_zero, ← pow_succ', if_neg Bool.false_ne_true, add_zero]

variable [CharP A 2]

theorem gfEval_xor (b : A) (x y : GfElem) : gfEval b (x ^^^ y) = gfEval b x + gfEval b y := by
  rw [gfEval, gfEval, gfEval, ← Finset.sum_add_distrib]
  refine Finset.sum_congr rfl fun i _ => ?_
  rw [BitVec.getMsbD_xor]
  cases x.getMsbD i <;> cases y.getMsbD i <;> simp [CharTwo.add_self_eq_zero]

variable {b : A} (hb : IsGfRoot b)
include hb

theorem gfEval_gfR : gfEval b gfR = b ^ 128 := by
  have hlow : gfEval b gfR = 1 + b + b ^ 2 + b ^ 7 := by
    simp only [gfR_eq, gfEval_xor, gfEval_gfPower b (show 0 < 128 by decide), gfEval_gfPower b (show 1 < 128 by decide),
      gfEval_gfPower b (show 2 < 128 by decide), gfEval_gfPower b (show 7 < 128 by decide), pow_zero, pow_one]
  rw [hlow]
  exact CharTwo.add_eq_zero.1 hb

/-- The step of `V` multiplies by the root (43_gcm R202). -/
theorem gfEval_gfShift (v : GfElem) : gfEval b (gfShift v) = b * gfEval b v := by
  rw [← gfEval_ushiftRight, gfShift]
  split
  · rw [gfEval_xor, gfEval_gfR hb]
  · rw [add_zero]

/-- The loop adds to `Z` the powers of `V` that the bits still to do select (43_gcm R202). -/
theorem gfEval_gfMulLoop (x y : GfElem) (k n : Nat) (z v : GfElem) (hv : gfEval b v = b ^ k * gfEval b y) :
    gfEval b (gfMulLoop x (List.range' k n) z v) =
      gfEval b z + ((List.range' k n).map fun i => if x.getMsbD i then b ^ i else 0).sum * gfEval b y := by
  induction n generalizing k z v with
  | zero => simp [gfMulLoop]
  | succ n ih =>
    have hnext : gfEval b (gfShift v) = b ^ (k + 1) * gfEval b y := by rw [gfEval_gfShift hb, hv]; ring
    rw [List.range'_succ, gfMulLoop, ih (k + 1) _ _ hnext, List.map_cons, List.sum_cons]
    split
    · rw [gfEval_xor, hv]; ring
    · ring

theorem gfEval_gfMul (x y : GfElem) : gfEval b (gfMul x y) = gfEval b x * gfEval b y := by
  have hloop := gfEval_gfMulLoop hb x y 0 128 0#128 y (by simp)
  rw [← List.range_eq_range', gfEval_zero, zero_add] at hloop
  exact hloop

end Eval

/-! ### The polynomial of an element: its value at `X` -/

section Polynomial

open Polynomial

variable {A : Type*} [CommRing A]

/-- The coefficients are the bits (43_gcm R201). -/
theorem coeff_gfEval_X (x : GfElem) {i : Nat} (hi : i < 128) :
    (gfEval (X : A[X]) x).coeff i = if x.getMsbD i then 1 else 0 := by
  rw [gfEval, finsetSum_coeff, Finset.sum_eq_single i]
  · simp [apply_ite (coeff · i)]
  · intro j _ hji
    simp [apply_ite (coeff · i), coeff_X_pow, hji.symm]
  · exact fun hmem => absurd (Finset.mem_range.2 hi) hmem

theorem natDegree_gfEval_X (x : GfElem) : (gfEval (X : A[X]) x).natDegree < 128 := by
  refine Nat.lt_succ_of_le (natDegree_sum_le_of_forall_le _ _ fun i hi => ?_)
  split
  · exact (natDegree_X_pow_le i).trans (Nat.le_of_lt_succ (Finset.mem_range.1 hi))
  · simp

/-- Only the element 0 has the polynomial 0. -/
theorem eq_zero_of_gfEval_X_eq_zero [Nontrivial A] {x : GfElem} (h : gfEval (X : A[X]) x = 0) : x = 0#128 := by
  refine BitVec.eq_of_getMsbD_eq fun i hi => ?_
  have hcoeff := coeff_gfEval_X (A := A) x hi
  rw [h, coeff_zero] at hcoeff
  simpa [BitVec.getMsbD_zero] using hcoeff

end Polynomial

/-! ### The conjugates of the root, and injectivity -/

/-- Squaring in GF(2^128). -/
def gfSquare (x : GfElem) : GfElem := gfMul x x

/-- The 128-fold square of the power 1 is itself: the root lies in a field of 2^128 elements. -/
theorem gfSquare_iterate_128 : gfSquare^[128] (gfPower 1) = gfPower 1 := by decide +kernel

/-- An inverse of the difference between the power 1 and its 64-fold square: the root lies in no field of 2^64
elements. -/
theorem gfSquare_iterate_64 :
    gfMul 0x180DA934BF53158251C13DBB149F5279#128 (gfSquare^[64] (gfPower 1) ^^^ gfPower 1) = gfPower 0 := by
  decide +kernel

section Field

open Polynomial

variable {K : Type*} [Field K] [CharP K 2] {b : K} (hb : IsGfRoot b)
include hb

theorem gfEval_gfSquare_iterate (n : Nat) (x : GfElem) :
    gfEval b (gfSquare^[n] x) = (frobenius K 2)^[n] (gfEval b x) := by
  have hsquare : Function.Semiconj (gfEval b) gfSquare (frobenius K 2) := fun x => by
    rw [gfSquare, gfEval_gfMul hb, frobenius_def, sq]
  exact hsquare.iterate_right n x

/-- The root has 128 conjugates: they come back after 128 squarings and not after 64. -/
theorem minimalPeriod_frobenius_gfRoot : Function.minimalPeriod (frobenius K 2) b = 128 := by
  have hone : gfEval b (gfPower 1) = b := by rw [gfEval_gfPower b (by decide), pow_one]
  have hconj (n : Nat) : gfEval b (gfSquare^[n] (gfPower 1)) = (frobenius K 2)^[n] b := by
    rw [gfEval_gfSquare_iterate hb, hone]
  refine Function.minimalPeriod_eq_prime_pow (p := 2) (k := 6) (fun h64 => ?_) ?_
  · have hunit := congrArg (gfEval b) gfSquare_iterate_64
    rw [gfEval_gfMul hb, gfEval_xor, hconj, hone, gfEval_gfPower b (by decide), pow_zero] at hunit
    have hsame : (frobenius K 2)^[64] b = b := h64
    rw [hsame, CharTwo.add_self_eq_zero, mul_zero] at hunit
    exact zero_ne_one hunit
  · have hsame := hconj 128
    rw [gfSquare_iterate_128, hone] at hsame
    exact hsame.symm

/-- An element with the value 0 is a polynomial of degree below 128 that vanishes at all 128 conjugates. -/
theorem eq_zero_of_gfEval_eq_zero {x : GfElem} (hx : gfEval b x = 0) : x = 0#128 := by
  have hroots (i : Fin 128) : (gfEval (X : K[X]) x).eval ((frobenius K 2)^[i] b) = 0 := by
    rw [← coe_evalRingHom, map_gfEval, coe_evalRingHom, eval_X, ← coe_iterateFrobenius, ← map_gfEval, hx, map_zero]
  have hdistinct : Function.Injective fun i : Fin 128 => (frobenius K 2)^[i] b := fun i j hij =>
    Fin.ext (Function.iterate_injOn_Iio_minimalPeriod (by simp [minimalPeriod_frobenius_gfRoot hb])
      (by simp [minimalPeriod_frobenius_gfRoot hb]) hij)
  exact eq_zero_of_gfEval_X_eq_zero
    (eq_zero_of_natDegree_lt_card_of_eval_eq_zero _ hdistinct hroots (by simpa using natDegree_gfEval_X x))

theorem gfEval_injective : Function.Injective (gfEval b) := fun x y hxy => by
  have hxor : gfEval b (x ^^^ y) = 0 := by rw [gfEval_xor, hxy, CharTwo.add_self_eq_zero]
  exact BitVec.xor_eq_zero_iff.1 (eq_zero_of_gfEval_eq_zero hb hxor)

end Field

/-! ### The field laws of `gfMul` -/

open Polynomial in
theorem exists_gfRoot : ∃ b : AlgebraicClosure (ZMod 2), IsGfRoot b := by
  have hdegree : (1 + X + X ^ 2 + X ^ 7 + X ^ 128 : (AlgebraicClosure (ZMod 2))[X]).natDegree = 128 := by
    compute_degree!
  obtain ⟨b, hb⟩ := IsAlgClosed.exists_root _ (degree_ne_of_natDegree_ne (hdegree.trans_ne (by decide)))
  exact ⟨b, by simpa [IsGfRoot] using hb⟩

theorem gfMul_comm (x y : GfElem) : gfMul x y = gfMul y x := by
  obtain ⟨b, hb⟩ := exists_gfRoot
  apply gfEval_injective hb
  rw [gfEval_gfMul hb, gfEval_gfMul hb, mul_comm]

theorem gfMul_zero (x : GfElem) : gfMul x 0#128 = 0#128 := by
  obtain ⟨b, hb⟩ := exists_gfRoot
  apply gfEval_injective hb
  rw [gfEval_gfMul hb, gfEval_zero, mul_zero]

/-- The power 0 is the identity (43_gcm R202). -/
theorem gfPower_zero_gfMul (x : GfElem) : gfMul (gfPower 0) x = x := by
  obtain ⟨b, hb⟩ := exists_gfRoot
  apply gfEval_injective hb
  rw [gfEval_gfMul hb, gfEval_gfPower b (by decide), pow_zero, one_mul]

/-- There are no zero divisors, so multiplication by a non-zero element is injective. -/
theorem gfMul_left_injective {h x y : GfElem} (hh : h ≠ 0#128) (hxy : gfMul x h = gfMul y h) : x = y := by
  obtain ⟨b, hb⟩ := exists_gfRoot
  have hne : gfEval b h ≠ 0 := fun h0 => hh (eq_zero_of_gfEval_eq_zero hb h0)
  have hval := congrArg (gfEval b) hxy
  rw [gfEval_gfMul hb, gfEval_gfMul hb] at hval
  exact gfEval_injective hb (mul_right_cancel₀ hne hval)

/-! ### On 16-byte blocks -/

theorem gfOfBlock_injective {x y : Bytes} (hx : x.length = 16) (hy : y.length = 16)
    (h : gfOfBlock x = gfOfBlock y) : x = y := by
  rw [← blockOfGf_gfOfBlock x hx, ← blockOfGf_gfOfBlock y hy, h]

theorem gfOfBlock_zeros : gfOfBlock (List.replicate 16 0#8) = 0#128 := by decide
theorem blockOfGf_zero : blockOfGf 0#128 = List.replicate 16 0#8 := by decide
theorem gfOfBlock_one : gfOfBlock (0x80#8 :: List.replicate 15 0#8) = gfPower 0 := by decide

theorem gf128Mul_left_injective {h x y : Bytes} (hlen : h.length = 16) (hh : h ≠ List.replicate 16 0#8)
    (hx : x.length = 16) (hy : y.length = 16) (hxy : gf128Mul x h = gf128Mul y h) : x = y := by
  have hne : gfOfBlock h ≠ 0#128 := fun h0 => hh (gfOfBlock_injective hlen rfl (h0.trans gfOfBlock_zeros.symm))
  have hmul := congrArg gfOfBlock hxy
  rw [gf128Mul, gf128Mul, gfOfBlock_blockOfGf, gfOfBlock_blockOfGf] at hmul
  exact gfOfBlock_injective hx hy (gfMul_left_injective hne hmul)

/-- Settles O51: a product of elements is a product in a field, and blocks are elements. -/
theorem gfMulIsCommutativeWithIdentity : Obligations.GfMulIsCommutativeWithIdentity := by
  intro x y hx _
  refine ⟨?_, ?_, ?_⟩
  · rw [gf128Mul, gfMul_comm, gf128Mul]
  · rw [gf128Mul, gfOfBlock_zeros, gfMul_zero, blockOfGf_zero]
  · rw [gf128Mul, gfOfBlock_one, gfPower_zero_gfMul, blockOfGf_gfOfBlock x hx]

end Sys2Proof.Machine

/-! SUPPORT. What the GCM commands do with the operand buffer (43_gcm R207, R210, R215), and counter mode undone
(R204). -/

namespace Sys2Proof.Machine

/-! ### Counter mode -/

/-- A counter-mode block and the blocks after it, taken apart again: a short block is the last one. -/
theorem gctrBlocks_succ_take_drop {key : Bytes} (hk : key.length = 16) {k : Nat} {x : Bytes} (cb : Bytes)
    (h : x.length ≤ 16 * (k + 1)) :
    (gctrBlocks key (k + 1) cb x).take 16 = xorBytes (x.take 16) (aesEncrypt key cb) ∧
      (gctrBlocks key (k + 1) cb x).drop 16 = gctrBlocks key k (inc32 cb) (x.drop 16) := by
  have hblock : (xorBytes (x.take 16) (aesEncrypt key cb)).length = min 16 x.length := by
    rw [xorBytes_length, aesEncrypt_length key cb hk, List.length_take]; omega
  have hrest := gctrBlocks_length key hk k (inc32 cb) (x.drop 16) (by rw [List.length_drop]; omega)
  rw [List.length_drop] at hrest
  rw [gctrBlocks]
  rcases Nat.le_total 16 x.length with hfull | hshort
  · have hlen : (xorBytes (x.take 16) (aesEncrypt key cb)).length = 16 := by omega
    exact ⟨List.take_left' hlen, List.drop_left' hlen⟩
  · rw [List.eq_nil_of_length_eq_zero (hrest.trans (Nat.sub_eq_zero_of_le hshort)), List.append_nil]
    exact ⟨List.take_of_length_le (by omega), List.drop_of_length_le (by omega)⟩

theorem gctrBlocks_gctrBlocks {key : Bytes} (hk : key.length = 16) (k : Nat) (cb x : Bytes) (h : x.length ≤ 16 * k) :
    gctrBlocks key k cb (gctrBlocks key k cb x) = x := by
  induction k generalizing cb x with
  | zero => exact (List.eq_nil_of_length_eq_zero (by omega)).symm
  | succ k ih =>
    obtain ⟨htake, hdrop⟩ := gctrBlocks_succ_take_drop hk cb h
    have hcover : (x.take 16).length ≤ (aesEncrypt key cb).length := by
      rw [aesEncrypt_length key cb hk, List.length_take]; omega
    rw [gctrBlocks, htake, hdrop, xorBytes_xorBytes _ _ hcover, ih _ _ (by rw [List.length_drop]; omega),
      List.take_append_drop]

/-- Settles O52: each block is covered twice by the same key stream block. -/
theorem counterModeIsItsOwnInverse : Obligations.CounterModeIsItsOwnInverse := by
  intro key icb x hk
  have hlen := gctr_length key icb x hk
  refine ⟨hlen, ?_⟩
  rw [gctr, hlen]
  exact gctrBlocks_gctrBlocks hk _ icb x (by omega)

/-! ### Byte strings in the operand buffer -/

theorem obRead_obWriteBytes_inside {off i : Nat} {x : Bytes} (s : State) (hi : i < x.length) :
    obRead (off + i) (obWriteBytes off x s) = x.getD i 0#8 := by
  rw [obRead_obWriteBytes, if_pos (by omega), Nat.add_sub_cancel_left]

theorem obRead_obWriteBytes_outside {off o : Nat} {x : Bytes} (s : State) (ho : ¬(off ≤ o ∧ o < off + x.length)) :
    obRead o (obWriteBytes off x s) = obRead o s := by
  rw [obRead_obWriteBytes, if_neg ho]

theorem obReadBytes_eq_of_getD {off : Nat} {x : Bytes} {s : State}
    (h : ∀ i < x.length, obRead (off + i) s = x.getD i 0#8) : obReadBytes off x.length s = x := by
  refine List.ext_getElem (obReadBytes_length ..) fun i _ hi => ?_
  rw [← List.getD_eq_getElem _ 0#8, obReadBytes_getD off _ i s hi, h i hi, List.getD_eq_getElem _ _ hi]

/-- A command that answers from a state that differs in the operand buffer only keeps all the rest. -/
theorem OnlyOb.respond_frames {s t : State} (h : OnlyOb s t) (flag : Bool) (value : Half) :
    clockFrame s (respond .ok flag value t) ∧ nvFrame s (respond .ok flag value t) ∧
      controlFrame s (respond .ok flag value t) := by
  rw [h]
  exact ⟨⟨rfl, rfl, rfl⟩, ⟨fun _ => rfl, rfl⟩, rfl, rfl, rfl⟩

/-- A command that completes without an effect changes the response port only (60_exceptions R243). -/
theorem complete_frames (flag : Bool) (value : Half) (s : State) :
    ∃ t, complete flag value s = .next t ∧ answered t flag value ∧
      clockFrame s t ∧ nvFrame s t ∧ obFrame s t ∧ controlFrame s t :=
  ⟨_, rfl, rfl, ⟨rfl, rfl, rfl⟩, ⟨fun _ => rfl, rfl⟩, fun _ => rfl, rfl, rfl, rfl⟩

/-! ### Validation -/

/-- `gcm_validate()` accepts the two lengths and all four flags, and nothing else (43_gcm R207). -/
theorem gcmValidate_iff (p : PresentFlags) (s : State) :
    gcmValidate p s = true ↔ lengthsClaimed s ∧ p = allPresent := by
  obtain ⟨pIn, pAad, pOut, pTag⟩ := p
  simp only [gcmValidate, Bool.and_eq_true, decide_eq_true_eq, PresentFlags.mk.injEq, and_assoc]
  exact Iff.rfl

theorem gcmValidate_allPresent {s : State} (h : lengthsClaimed s) : gcmValidate allPresent s = true :=
  (gcmValidate_iff allPresent s).2 ⟨h, rfl⟩

/-- Settles O43: validation fails, and a command that fails softly changes only the response. -/
theorem invalidGcmOperandsTouchNothing : Obligations.InvalidGcmOperandsTouchNothing := by
  intro p n m i s hi hbad
  have hvalid : ¬gcmValidate p s = true := by
    rw [gcmValidate_iff]
    tauto
  have hexec : exec i s = complete false 0#16 s := by
    rcases hi with rfl | rfl
    · exact if_neg hvalid
    · exact if_neg hvalid
  rw [hexec]
  exact complete_frames false 0#16 s

/-! ### Encryption -/

theorem execGcmEncrypt_of_lengthsClaimed {s : State} (n m : Byte) (h : lengthsClaimed s) :
    execGcmEncrypt allPresent n m s =
      complete true 0#16 (obWriteBytes obTag (encryptedTag n m s) (obWriteBytes obOut (encryptedText n s) s)) :=
  if_pos (gcmValidate_allPresent h)

/-- Settles O42: OUT and TAG are disjoint, so each holds what was written to it. -/
theorem encryptWritesCiphertextAndTag : Obligations.EncryptWritesCiphertextAndTag := by
  intro n m s hclaimed
  have htag := encryptedTag_length n m s
  have htext := encryptedText_length n s
  have honly : OnlyOb s (obWriteBytes obTag (encryptedTag n m s) (obWriteBytes obOut (encryptedText n s) s)) :=
    .trans (.obWriteBytes ..) (.obWriteBytes ..)
  refine ⟨_, execGcmEncrypt_of_lengthsClaimed n m hclaimed, rfl, fun i hi => ?_, fun i hi => ?_, fun o ho ho' => ?_,
    honly.respond_frames true 0#16⟩
  · rw [obRead_respond, obRead_obWriteBytes_outside _ (by simp only [obTag, htag]; omega)]
    exact obRead_obWriteBytes_inside s (htext.symm ▸ hi)
  · exact obRead_obWriteBytes_inside _ (htag.symm ▸ hi)
  · rw [obRead_respond, obRead_obWriteBytes_outside _ (by simpa only [obTag, htag] using ho'),
      obRead_obWriteBytes_outside _ (by simpa only [obOut, htext] using ho)]

/-! ### Decryption -/

/-- The tag comparison is with the TAG in the buffer (43_gcm R208, R215). -/
theorem tagEqual_expectedTag_iff (n m : Byte) (s : State) :
    tagEqual (expectedTag n m s) (gcmTagIn s) = true ↔
      obReadBytes 0x030 16 s = bufferTag m (obReadBytes 0x200 n.toNat s) s :=
  (tagEqual_iff _ _ (by simp)).trans eq_comm

theorem execGcmDecrypt_of_authentic {n m : Byte} {s : State} (h : authentic n m s) :
    execGcmDecrypt allPresent n m s = complete true 0#16 (obWriteBytes obOut (decryptedText n s) s) := by
  obtain ⟨hclaimed, htag⟩ := h
  rw [execGcmDecrypt, if_pos (gcmValidate_allPresent hclaimed), if_pos ((tagEqual_expectedTag_iff n m s).2 htag)]

theorem execGcmDecrypt_of_mismatch {n m : Byte} {s : State} (p : PresentFlags)
    (h : obReadBytes 0x030 16 s ≠ bufferTag m (obReadBytes 0x200 n.toNat s) s) :
    execGcmDecrypt p n m s = complete false 0#16 s := by
  rw [execGcmDecrypt, if_neg (mt (tagEqual_expectedTag_iff n m s).1 h), ite_self]

/-- Settles O44: the plaintext is written to OUT and nothing to any other byte. -/
theorem decryptOnMatchWritesPlaintext : Obligations.DecryptOnMatchWritesPlaintext := by
  intro n m s hauth
  have htext := decryptedText_length n s
  refine ⟨_, execGcmDecrypt_of_authentic hauth, rfl, fun i hi => ?_, fun o ho => ?_,
    (OnlyOb.obWriteBytes ..).respond_frames true 0#16⟩
  · exact obRead_obWriteBytes_inside s (htext.symm ▸ hi)
  · exact obRead_obWriteBytes_outside s (by simpa only [obOut, htext] using ho)

/-- Settles O45: a tag that does not match fails softly, whether or not validation has failed before. -/
theorem decryptOnMismatchReleasesNothing : Obligations.DecryptOnMismatchReleasesNothing := by
  intro p n m s hmismatch
  rw [exec, execGcmDecrypt_of_mismatch p hmismatch]
  exact complete_frames false 0#16 s

/-! ### Buffers that agree on operands -/

section SameOperands

variable {s u : State} (h : ∀ o < 0x030, obRead o u = obRead o s)
include h

theorem gcmKey_of_same : obReadBytes 0x010 16 u = obReadBytes 0x010 16 s :=
  obReadBytes_congr fun i hi => h (0x010 + i) (by omega)

theorem gcmIv_of_same : obReadBytes 0x020 12 u = obReadBytes 0x020 12 s :=
  obReadBytes_congr fun i hi => h (0x020 + i) (by omega)

theorem bufferCrypt_of_same (x : Bytes) : bufferCrypt x u = bufferCrypt x s := by
  rw [bufferCrypt, bufferCrypt, gcmKey_of_same h, gcmIv_of_same h]

theorem bufferTag_of_same {m : Byte} (haad : ∀ i < m.toNat, obRead (0x100 + i) u = obRead (0x100 + i) s) (c : Bytes) :
    bufferTag m c u = bufferTag m c s := by
  rw [bufferTag, bufferTag, gcmKey_of_same h, gcmIv_of_same h, obReadBytes_congr haad]

end SameOperands

/-! ### The round trip -/

theorem bufferCrypt_bufferCrypt (x : Bytes) (s : State) : bufferCrypt (bufferCrypt x s) s = x :=
  (counterModeIsItsOwnInverse _ _ x (obReadBytes_length ..)).2

/-- Settles O46: the copied ciphertext carries the tag that decryption expects, and counter mode undoes itself. -/
theorem gcmRoundTrip : Obligations.GcmRoundTrip := by
  intro n m s t u hclaimed ht hu
  have hn := n.isLt
  have hm := m.isLt
  obtain ⟨t', ht', -, hout, htag, hrest, -⟩ := encryptWritesCiphertextAndTag n m s hclaimed
  obtain rfl := Host.Outcome.next.inj (ht.symm.trans ht')
  generalize hc : bufferCrypt (obReadBytes 0x200 n.toNat s) s = c at hout htag
  have hclen : c.length = n.toNat := by simp [← hc]
  have hlow (o : Nat) (ho : o < 0x030) : obRead o u = obRead o s := by
    rw [hu, if_neg (by omega), hrest o (by omega) (by omega)]
  have haad (i : Nat) (hi : i < m.toNat) : obRead (0x100 + i) u = obRead (0x100 + i) s := by
    rw [hu, if_neg (by omega), hrest _ (by omega) (by omega)]
  have htext : obReadBytes 0x200 n.toNat u = c := by
    rw [← hclen]
    refine obReadBytes_eq_of_getD fun i hi => ?_
    rw [hu, if_pos (by omega), ← hout i (by omega), Nat.add_right_comm]
  have htaglen : (bufferTag m c s).length = 16 := gcmTag_length _ _ _ _ (obReadBytes_length ..)
  have htagIn : obReadBytes 0x030 16 u = bufferTag m c s := by
    rw [← htaglen]
    refine obReadBytes_eq_of_getD fun i hi => ?_
    rw [hu, if_neg (by omega), htag i (by omega)]
  have hauth : authentic n m u := by
    refine ⟨⟨(hlow _ (by omega)).trans hclaimed.1, (hlow _ (by omega)).trans hclaimed.2⟩, ?_⟩
    rw [htagIn, htext, bufferTag_of_same hlow haad]
  obtain ⟨v, hv, hanswer, hplain, -⟩ := decryptOnMatchWritesPlaintext n m u hauth
  refine ⟨v, hv, hanswer, fun i hi => ?_⟩
  rw [hplain i hi, htext, bufferCrypt_of_same hlow, ← hc, bufferCrypt_bufferCrypt, obReadBytes_getD _ _ _ _ hi]

end Sys2Proof.Machine

/-! SUPPORT. A change of one byte of a frame is detected (43_gcm R217): GHASH under a non-zero subkey keeps two byte
strings apart that differ in one byte, since every step of it is injective (R202, R205). -/

namespace Sys2Proof.Machine

/-! ### Byte strings that differ in one byte -/

/-- The two strings are the same but for one byte in the same place. -/
def OneByteDiffers (x y : Bytes) : Prop :=
  ∃ pre post a b, a ≠ b ∧ x = pre ++ a :: post ∧ y = pre ++ b :: post

theorem OneByteDiffers.length_eq {x y : Bytes} (h : OneByteDiffers x y) : x.length = y.length := by
  obtain ⟨pre, post, a, b, -, rfl, rfl⟩ := h
  simp

theorem OneByteDiffers.ne {x y : Bytes} (h : OneByteDiffers x y) : x ≠ y := by
  obtain ⟨pre, post, a, b, hab, rfl, rfl⟩ := h
  simp [hab]

theorem OneByteDiffers.append_left {x y : Bytes} (h : OneByteDiffers x y) (p : Bytes) :
    OneByteDiffers (p ++ x) (p ++ y) := by
  obtain ⟨pre, post, a, b, hab, rfl, rfl⟩ := h
  exact ⟨p ++ pre, post, a, b, hab, by simp, by simp⟩

theorem OneByteDiffers.append_right {x y : Bytes} (h : OneByteDiffers x y) (q : Bytes) :
    OneByteDiffers (x ++ q) (y ++ q) := by
  obtain ⟨pre, post, a, b, hab, rfl, rfl⟩ := h
  exact ⟨pre, post ++ q, a, b, hab, by simp, by simp⟩

/-- Cut at one place, the strings differ before it or after it, and not on both sides. -/
theorem OneByteDiffers.cut {x y : Bytes} (h : OneByteDiffers x y) (n : Nat) :
    (x.take n ≠ y.take n ∧ x.drop n = y.drop n) ∨ (x.take n = y.take n ∧ OneByteDiffers (x.drop n) (y.drop n)) := by
  obtain ⟨pre, post, a, b, hab, rfl, rfl⟩ := h
  rcases Nat.lt_or_ge pre.length n with hlt | hge
  · obtain ⟨j, rfl⟩ : ∃ j, n = pre.length + (j + 1) := ⟨n - pre.length - 1, by omega⟩
    exact .inl ⟨by simp [List.take_length_add_append, hab], by simp [List.drop_length_add_append]⟩
  · refine .inr ⟨by simp [List.take_append_of_le_length hge], pre.drop n, post, a, b, hab, ?_, ?_⟩
    · rw [List.drop_append_of_le_length hge]
    · rw [List.drop_append_of_le_length hge]

/-! ### GHASH is injective step by step -/

theorem xorBytes_comm (x y : Bytes) : xorBytes x y = xorBytes y x :=
  List.zipWith_comm_of_comm BitVec.xor_comm

theorem xorBytes_left_injective {x y k : Bytes} (hx : x.length ≤ k.length) (hy : y.length ≤ k.length)
    (h : xorBytes x k = xorBytes y k) : x = y := addRoundKey_injective hx hy h

@[simp] theorem ghashStep_length (h y d : Bytes) : (ghashStep h y d).length = 16 := gf128Mul_length ..

/-- The padded strings and the two lengths are whole blocks (43_gcm R205). -/
theorem ghashData_length (a c : Bytes) : (ghashData a c).length = 16 * ((ghashData a c).length / 16) := by
  simp only [ghashData, ghashPad, be64, List.length_append, zeroBytes_length, beBytes_length]
  omega

section Hash

variable {h : Bytes} (hlen : h.length = 16) (hne : h ≠ zeroBytes 16)
include hlen hne

theorem ghashStep_injective {y y' d d' : Bytes} (hy : y.length = 16) (hy' : y'.length = 16) (hd : d.length = 16)
    (hd' : d'.length = 16) (heq : ghashStep h y d = ghashStep h y' d') : xorBytes y d = xorBytes y' d' :=
  gf128Mul_left_injective hlen hne (by simp [hy, hd]) (by simp [hy', hd']) heq

/-- Over the same blocks, different values stay different. -/
theorem ghashFold_injective (k : Nat) {x y y' : Bytes} (hx : x.length = 16 * k) (hy : y.length = 16)
    (hy' : y'.length = 16) (heq : (blocksOf k x).foldl (ghashStep h) y = (blocksOf k x).foldl (ghashStep h) y') :
    y = y' := by
  induction k generalizing x y y' with
  | zero => exact heq
  | succ k ih =>
    have hhead : (x.take 16).length = 16 := by rw [List.length_take]; omega
    have htail : (x.drop 16).length = 16 * k := by rw [List.length_drop]; omega
    simp only [blocksOf, List.foldl_cons] at heq
    have hstep := ih htail (ghashStep_length ..) (ghashStep_length ..) heq
    have hxor := ghashStep_injective hlen hne hy hy' hhead hhead hstep
    exact xorBytes_left_injective (by omega) (by omega) hxor

/-- Over blocks that differ in one byte, one value becomes two. -/
theorem ghashFold_ne (k : Nat) {x x' y : Bytes} (hdiff : OneByteDiffers x x') (hx : x.length = 16 * k)
    (hy : y.length = 16) : (blocksOf k x).foldl (ghashStep h) y ≠ (blocksOf k x').foldl (ghashStep h) y := by
  induction k generalizing x x' y with
  | zero =>
    obtain ⟨pre, post, a, b, -, rfl, -⟩ := hdiff
    simp at hx
  | succ k ih =>
    have hx' : x'.length = 16 * (k + 1) := hdiff.length_eq ▸ hx
    have hhead : (x.take 16).length = 16 := by rw [List.length_take]; omega
    have hhead' : (x'.take 16).length = 16 := by rw [List.length_take]; omega
    have htail : (x.drop 16).length = 16 * k := by rw [List.length_drop]; omega
    simp only [blocksOf, List.foldl_cons]
    rcases hdiff.cut 16 with ⟨hblock, hsame⟩ | ⟨hsame, hdiff⟩
    · intro heq
      rw [← hsame] at heq
      have hstep := ghashFold_injective hlen hne k htail (ghashStep_length ..) (ghashStep_length ..) heq
      have hxor := ghashStep_injective hlen hne hy hy hhead hhead' hstep
      rw [xorBytes_comm y, xorBytes_comm y] at hxor
      exact hblock (xorBytes_left_injective (by omega) (by omega) hxor)
    · rw [← hsame]
      exact ih hdiff htail (ghashStep_length ..)

theorem ghash_ne {a a' c c' : Bytes} (hdiff : OneByteDiffers (ghashData a c) (ghashData a' c')) :
    ghash h a c ≠ ghash h a' c' := by
  rw [ghash, ghash, ← hdiff.length_eq]
  exact ghashFold_ne hlen hne _ hdiff (ghashData_length a c) (zeroBytes_length 16)

end Hash

theorem ghashData_text_differs (a : Bytes) {c c' : Bytes} (hdiff : OneByteDiffers c c') :
    OneByteDiffers (ghashData a c) (ghashData a c') := by
  rw [ghashData, ghashData, ghashPad, ghashPad, ghashPad, ← hdiff.length_eq]
  exact ((((hdiff.append_left _).append_right _).append_right _).append_right _)

theorem ghashData_aad_differs (c : Bytes) {a a' : Bytes} (hdiff : OneByteDiffers a a') :
    OneByteDiffers (ghashData a c) (ghashData a' c) := by
  rw [ghashData, ghashData, ghashPad, ghashPad, ghashPad, ← hdiff.length_eq]
  exact ((((hdiff.append_right _).append_right _).append_right _).append_right _).append_right _

/-- Under a non-zero subkey the tag of a frame changes with any byte of its data (43_gcm R217). -/
theorem gcmTag_ne {key iv a a' c c' : Bytes} (hkey : key.length = 16) (hne : hashSubkey key ≠ zeroBytes 16)
    (hdiff : OneByteDiffers (ghashData a c) (ghashData a' c')) : gcmTag key iv a c ≠ gcmTag key iv a' c' := by
  have hblock := aesEncrypt_length key (counterBlock0 iv) hkey
  refine fun heq => ghash_ne (aesEncrypt_length key _ hkey) hne hdiff ?_
  exact xorBytes_left_injective (by simp [hblock]) (by simp [hblock]) heq

/-! ### A flipped bit in the buffer -/

theorem xor_bit_ne (x : Byte) {b : Nat} (hb : b < 8) : x ≠ x ^^^ (1#8 <<< b) := by
  have hbit : ∀ b < 8, (1#8 <<< b) ≠ 0#8 := by decide
  exact fun h => hbit b hb (BitVec.xor_right_inj x |>.1 (h.symm.trans BitVec.xor_zero.symm))

theorem obReadBytes_add (off k l : Nat) (s : State) :
    obReadBytes off (k + l) s = obReadBytes off k s ++ obReadBytes (off + k) l s := by
  simp only [obReadBytes, List.range_add, List.map_append, List.map_map, Function.comp_def, Nat.add_assoc]

theorem obReadBytes_succ (off l : Nat) (s : State) :
    obReadBytes off (l + 1) s = obRead off s :: obReadBytes (off + 1) l s := by
  simp only [Nat.add_comm l 1, obReadBytes_add off 1 l s]
  rfl

section Flip

variable {o b : Nat} {s u : State} (hflip : bitFlipped o b s u)
include hflip

theorem obRead_of_bitFlipped {p : Nat} (hp : p ≠ o) : obRead p u = obRead p s := (hflip p).trans (if_neg hp)

theorem obReadBytes_of_bitFlipped {off n : Nat} (ho : ¬(off ≤ o ∧ o < off + n)) :
    obReadBytes off n u = obReadBytes off n s :=
  obReadBytes_congr fun i hi => obRead_of_bitFlipped hflip (by omega)

theorem oneByteDiffers_of_bitFlipped (hb : b < 8) {off n : Nat} (ho : off ≤ o ∧ o < off + n) :
    OneByteDiffers (obReadBytes off n s) (obReadBytes off n u) := by
  obtain ⟨k, rfl⟩ : ∃ k, o = off + k := ⟨o - off, by omega⟩
  obtain ⟨l, rfl⟩ : ∃ l, n = k + (l + 1) := ⟨n - k - 1, by omega⟩
  refine ⟨obReadBytes off k s, obReadBytes (off + k + 1) l s, _, _, xor_bit_ne (obRead (off + k) s) hb, ?_, ?_⟩
  · rw [obReadBytes_add, obReadBytes_succ]
  · rw [obReadBytes_add, obReadBytes_succ, obReadBytes_of_bitFlipped hflip (off := off) (by omega),
      obReadBytes_of_bitFlipped hflip (off := off + k + 1) (by omega), hflip (off + k), if_pos rfl]

end Flip

/-- A decryption whose tag does not match answers FLAG 0 and keeps the buffer (43_gcm R215). -/
theorem execGcmDecrypt_rejects {n m : Byte} {u : State}
    (h : bufferTag m (obReadBytes 0x200 n.toNat u) u ≠ obReadBytes 0x030 16 u) :
    ∃ v, exec (.gcmDecrypt allPresent n m) u = .next v ∧ answered v false 0#16 ∧ obFrame u v := by
  obtain ⟨v, hv, hanswer, -, -, hframe, -⟩ := decryptOnMismatchReleasesNothing allPresent n m u h.symm
  exact ⟨v, hv, hanswer, hframe⟩

/-- Settles O47: the tag expected is the one that verified, and TAG differs from it in one byte. -/
theorem flippedTagBitIsRejected : Obligations.FlippedTagBitIsRejected := by
  intro n m k b s u hk hb hauth hflip
  obtain ⟨-, htag⟩ := hauth
  have hlow (o : Nat) (ho : o < 0x030) : obRead o u = obRead o s := obRead_of_bitFlipped hflip (by omega)
  have haad (i : Nat) (hi : i < m.toNat) : obRead (0x100 + i) u = obRead (0x100 + i) s :=
    obRead_of_bitFlipped hflip (by omega)
  have htext : obReadBytes 0x200 n.toNat u = obReadBytes 0x200 n.toNat s := obReadBytes_of_bitFlipped hflip (by omega)
  refine execGcmDecrypt_rejects ?_
  rw [htext, bufferTag_of_same hlow haad, ← htag]
  exact (oneByteDiffers_of_bitFlipped hflip hb (by omega)).ne

/-- TAG is the one that verified, and GHASH tells the changed data from the authentic ones. -/
theorem execGcmDecrypt_rejects_data {n m : Byte} {o b : Nat} {s u : State} (hauth : authentic n m s)
    (hsubkey : hashSubkey (obReadBytes 0x010 16 s) ≠ zeroBytes 16) (ho : 0x100 ≤ o) (hflip : bitFlipped o b s u)
    (hdata : OneByteDiffers (ghashData (obReadBytes 0x100 m.toNat s) (obReadBytes 0x200 n.toNat s))
      (ghashData (obReadBytes 0x100 m.toNat u) (obReadBytes 0x200 n.toNat u))) :
    ∃ v, exec (.gcmDecrypt allPresent n m) u = .next v ∧ answered v false 0#16 ∧ obFrame u v := by
  obtain ⟨-, htag⟩ := hauth
  have hlow (p : Nat) (hp : p < 0x030) : obRead p u = obRead p s := obRead_of_bitFlipped hflip (by omega)
  have htagIn : obReadBytes 0x030 16 u = obReadBytes 0x030 16 s := obReadBytes_of_bitFlipped hflip (by omega)
  refine execGcmDecrypt_rejects ?_
  rw [bufferTag, gcmKey_of_same hlow, gcmIv_of_same hlow, htagIn, htag]
  exact (gcmTag_ne (obReadBytes_length ..) hsubkey hdata).symm

/-- Settles O48: a flipped bit of either range changes one byte of the data that GHASH runs over. -/
theorem flippedDataBitIsRejected : Obligations.FlippedDataBitIsRejected := by
  intro n m k b s u hb hauth hsubkey hflip
  have hm := m.isLt
  rcases hflip with ⟨hk, hflip⟩ | ⟨hk, hflip⟩
  · refine execGcmDecrypt_rejects_data hauth hsubkey (by omega) hflip ?_
    rw [obReadBytes_of_bitFlipped hflip (off := 0x100) (by omega)]
    exact ghashData_text_differs _ (oneByteDiffers_of_bitFlipped hflip hb (by omega))
  · refine execGcmDecrypt_rejects_data hauth hsubkey (by omega) hflip ?_
    rw [obReadBytes_of_bitFlipped hflip (off := 0x200) (by omega)]
    exact ghashData_aad_differs _ (oneByteDiffers_of_bitFlipped hflip hb (by omega))

end Sys2Proof.Machine

/-! SUPPORT. The operand buffer commands on an offset of the buffer (44_operand_buffer R230, R231). -/

namespace Sys2Proof.Machine

theorem OnlyOb.obWrite (o : Nat) (v : Byte) (s : State) : OnlyOb s (obWrite o v s) := rfl

/-- Settles O40: the command writes its byte and answers, so no other byte and nothing outside the buffer is touched. -/
theorem obWrWritesOneByte : Obligations.ObWrWritesOneByte := by
  intro off byte s hoff
  refine ⟨_, checked_next.2 ⟨hoff, rfl⟩, rfl, ?_, fun o ho => ?_, (OnlyOb.obWrite ..).respond_frames false 0#16⟩
  · rw [obRead_respond, obRead_obWrite, if_pos rfl]
  · rw [obRead_respond, obRead_obWrite, if_neg ho.symm]

/-- Settles O41: the command only answers. -/
theorem obRdAnswersByte : Obligations.ObRdAnswersByte := by
  intro off s hoff
  have hexec : exec (.obRd off) s = complete false (byteValue (obRead off.toNat s)) s := if_pos hoff
  rw [hexec]
  exact complete_frames false (byteValue (obRead off.toNat s)) s

end Sys2Proof.Machine

/-! SUPPORT. The two faults (60_exceptions R240, R241): which words and which instructions raise them, and that a fault
changes nothing but the response. -/

namespace Sys2Proof.Machine

/-- Putting a response word on the port changes nothing else. -/
theorem respond_frames (status : Status) (flag : Bool) (value : Half) (s : State) :
    clockFrame s (respond status flag value s) ∧ nvFrame s (respond status flag value s) ∧
      obFrame s (respond status flag value s) ∧ controlFrame s (respond status flag value s) :=
  ⟨⟨rfl, rfl, rfl⟩, ⟨fun _ => rfl, rfl⟩, fun _ => rfl, rfl, rfl, rfl⟩

/-- The decoder rejects a word that matches no row (30_encoding R87, R88). -/
theorem decode_error_of_no_row {w : Word} (h : ∀ row ∈ opcodeTable, w &&& row.2 ≠ row.1) :
    ∃ e, decode (.command w) = .error e := by
  obtain ⟨hdecodable, -⟩ := commandWordsMatchOpcodeTable w
  cases hd : decode (.command w) with
  | error e => exact ⟨e, rfl⟩
  | ok i =>
    obtain ⟨row, hmem, hmatch⟩ := hdecodable.1 ⟨i, hd⟩
    exact absurd hmatch (h row hmem)

/-- Each of the six commands checks its address before it does anything (60_exceptions R241). -/
theorem exec_of_outOfRange {i : Instr} {s : State} (h : outOfRange i s) : exec i s = raiseAddress s := by
  cases i with
  | bsRead | bsUpdate | bsErase | bsClrbits | obWr | obRd => exact if_neg (Nat.not_lt.2 h)
  | rtcSethm | rtcPersist | rtcRestore | rtcGetsec | rtcGetmsm | rtcGetdays | rtcGethours | rtcGetmins | gcmEncrypt
  | gcmDecrypt | rtcTick => exact h.elim

/-- The one fault of an instruction is ADDRESS. -/
theorem exec_fault_iff {i : Instr} {s : State} {r : Fault} :
    exec i s = .fault r ↔ outOfRange i s ∧ r = .address (respond .address false 0#16 s) := by
  refine ⟨fun h => ?_, fun ⟨hout, hr⟩ => hr ▸ exec_of_outOfRange hout⟩
  have hresult := exec_result i s
  rw [h] at hresult
  cases hresult with
  | addressFault hout => exact ⟨hout, rfl⟩

/-- A step faults only on a presentation taken by an idle block, and answers from the state with that event removed. -/
theorem step_fault {s : State} {r : Fault} (h : step s = .fault r) :
    s.activity = .idle ∧ ∃ p rest status, s.inputs = .port p :: rest ∧
      r.after = respond status false 0#16 (withInputs rest s) := by
  rcases step_cases s with ⟨-, -, hwait⟩ | ⟨p, rest, i, ha, hi, -, hrun⟩ | ⟨p, rest, e, ha, hi, -, hillegal⟩ |
    ⟨rest, -, htick⟩ | ⟨rest, -, -, hreset⟩ | ⟨-, hstepB⟩
  · exact nomatch hwait.symm.trans h
  · obtain ⟨-, rfl⟩ := exec_fault_iff.1 (hrun.symm.trans h)
    exact ⟨ha, p, rest, .address, hi, rfl⟩
  · cases hillegal.symm.trans h
    exact ⟨ha, p, rest, .illegal, hi, rfl⟩
  · exact nomatch htick.symm.trans h
  · exact nomatch hreset.symm.trans h
  · exact nomatch hstepB.symm.trans h

/-- Settles O10: the decoder rejects the word, and the fault raised for it only answers. -/
theorem illegalWordFaultsAndChangesNothing : Obligations.IllegalWordFaultsAndChangesNothing := by
  intro s w rest ha hi hrow
  obtain ⟨e, he⟩ := decode_error_of_no_row hrow
  have hstep : step s = raiseIllegal (withInputs rest s) := by
    rw [step_port s _ rest ha hi, portAction_error he]
    rfl
  obtain ⟨hclock, hnv, hob, hconfig, hactivity, hinputs⟩ := respond_frames .illegal false 0#16 (withInputs rest s)
  exact ⟨_, hstep, rfl, hclock, hnv, hob, hactivity.trans ha, hconfig, hinputs⟩

/-- Settles O11: an address out of range is the one cause of a fault in `exec`, and that fault only answers. -/
theorem addressFaultExactlyOutOfRange : Obligations.AddressFaultExactlyOutOfRange := fun _ s =>
  ⟨fun hout => ⟨_, exec_of_outOfRange hout, rfl, respond_frames .address false 0#16 s⟩,
    fun _ hfault => (exec_fault_iff.1 hfault).1⟩

/-- Settles O13: either fault answers from the state with the faulting event removed. -/
theorem faultsArePrecise : Obligations.FaultsArePrecise := by
  intro s r h
  obtain ⟨ha, p, rest, status, hi, hafter⟩ := step_fault h
  obtain ⟨hclock, hnv, hob, hconfig, hactivity, hinputs⟩ := respond_frames status false 0#16 (withInputs rest s)
  rw [hafter]
  exact ⟨hclock, hnv, hob, hconfig, hactivity.trans ha, ha, p, hi⟩

end Sys2Proof.Machine


/-! SUPPORT. The clock cells of an array fresh from the erased state (70_reset R283), and the day counter whose bytes
are the erased pattern (R297). -/

namespace Sys2Proof.Machine

/-! ### Restore on erased cells -/

/-- The erased byte names hour 31, so it does not decode (41_rtc R149). -/
theorem hhqDecode_erased (bias : Nat) : hhqDecode bias 0xFF#8 = none := rfl

/-- Restore leaves the block alone where the three clock cells are erased (41_rtc R150). -/
theorem restore_of_erased {s : State} (hhhq : nvRead s.config.nvAddrHhq s = 0xFF#8)
    (hdays : storedDays s = 0xFFFF#16) : restore s = (s, false) := by
  have hinvalid : hhqDecode s.config.restoreBias (nvRead s.config.nvAddrHhq s) = none := by
    rw [hhhq, hhqDecode_erased]
  rw [restore_of_invalid hinvalid, restoreDays, if_pos hdays]

/-! ### Persist on erased cells -/

/-- What the log gains from `s` to `t` is writes only. -/
def OnlyWritesLogged (s t : State) : Prop :=
  ∃ ops, t.nvlog = s.nvlog ++ ops ∧ ∀ op ∈ ops, ∃ a v, op = .write a v

theorem OnlyWritesLogged.trans {s t u : State} (h : OnlyWritesLogged s t) (h' : OnlyWritesLogged t u) :
    OnlyWritesLogged s u := by
  obtain ⟨xs, hxs, hwrites⟩ := h
  obtain ⟨ys, hys, hwrites'⟩ := h'
  refine ⟨xs ++ ys, by rw [hys, hxs, List.append_assoc], fun op hop => ?_⟩
  exact (List.mem_append.1 hop).elim (hwrites op) (hwrites' op)

/-- From an erased cell every byte is reached by clearing bits (40_bytestore R115). -/
theorem smartUpdate_erased_onlyWritesLogged {a : Nat} {s : State} (v : Byte) (hsplit : s.config.splitEw = true)
    (ha : nvRead a s = 0xFF#8) : OnlyWritesLogged s (smartUpdate a v s).1 := by
  refine ⟨_, (smartUpdate_spec a v s).log, ?_⟩
  rw [ha, hsplit]
  split
  · exact fun _ hop => nomatch hop
  · next hne =>
    have hand : 0xFF#8 &&& v = v := BitVec.allOnes_and
    rw [updateOp_write (Ne.symm hne) hand]
    exact fun _ hop => ⟨a, v, List.mem_singleton.1 hop⟩

/-- Storing the day that is stored does nothing. -/
theorem persistDays_of_stored {d : Half} {s : State} (h : storedDays s = d) : persistDays d s = s := by
  subst h
  simp only [persistDays, smartUpdate_of_equal (storedDays_low s).symm, smartUpdate_of_equal (storedDays_high s).symm]

/-- Persist's test of the stored day spares no operation: it is the three updates in order (41_rtc R147). -/
theorem persist_eq_persistDays (s : State) :
    persist s = persistDays s.daysSinceEpoch (smartUpdate s.config.nvAddrHhq (hhqEncode s.minutesLT) s).1 := by
  unfold persist
  simp only
  split
  · next hstored => exact (persistDays_of_stored hstored).symm
  · rfl

theorem persistDays_erased_onlyWritesLogged {s : State} (d : Half) (hsplit : s.config.splitEw = true)
    (hlow : nvRead s.config.nvAddrDays s = 0xFF#8) (hhigh : nvRead (s.config.nvAddrDays + 1) s = 0xFF#8) :
    OnlyWritesLogged s (persistDays d s) := by
  have h := smartUpdate_spec s.config.nvAddrDays (d.extractLsb' 0 8) s
  exact (smartUpdate_erased_onlyWritesLogged _ hsplit hlow).trans
    (smartUpdate_erased_onlyWritesLogged _ (by rw [h.onlyNv.config, hsplit])
      (by rw [h.others _ (Nat.succ_ne_self _), hhigh]))

/-- No clock cell is updated twice, so each update of persist finds its cell still erased (70_reset R283). -/
theorem persist_erased_onlyWritesLogged {s : State} (hcfg : s.config.wf) (hsplit : s.config.splitEw = true)
    (hhhq : nvRead s.config.nvAddrHhq s = 0xFF#8) (hlow : nvRead s.config.nvAddrDays s = 0xFF#8)
    (hhigh : nvRead (s.config.nvAddrDays + 1) s = 0xFF#8) : OnlyWritesLogged s (persist s) := by
  obtain ⟨hne, hne'⟩ := wf_hhq_ne hcfg
  have h := smartUpdate_spec s.config.nvAddrHhq (hhqEncode s.minutesLT) s
  rw [persist_eq_persistDays]
  refine (smartUpdate_erased_onlyWritesLogged _ hsplit hhhq).trans (persistDays_erased_onlyWritesLogged _ ?_ ?_ ?_)
  · rw [h.onlyNv.config, hsplit]
  · rw [h.onlyNv.config, h.others _ hne.symm, hlow]
  · rw [h.onlyNv.config, h.others _ hne'.symm, hhigh]

/-! ### The statements -/

/-- Settles O38: restore finds neither a valid byte nor a day, and persist reaches its three bytes by clearing bits. -/
theorem freshArrayNeedsNoErase : Obligations.FreshArrayNeedsNoErase := by
  intro s hcfg hsplit hhhq hlow hhigh
  have hdays : storedDays s = 0xFFFF#16 := by rw [storedDays, hlow, hhigh]; rfl
  have hrestore : exec .rtcRestore s = complete false 0#16 s := by
    rw [exec, execRtcRestore, restore_of_erased hhhq hdays]
  obtain ⟨hclock, hnv, hob, -⟩ := respond_frames .ok false 0#16 s
  obtain ⟨ops, hlog, hwrites⟩ := persist_erased_onlyWritesLogged hcfg hsplit hhhq hlow hhigh
  exact ⟨⟨_, hrestore, rfl, hclock, hnv, hob⟩, _, ops, rfl, hlog, hwrites⟩

/-- Settles O39: the stored day is the erased sentinel, so restore keeps the counter that the reset cleared. -/
theorem lastDayIsNotRestored : Obligations.LastDayIsNotRestored := by
  intro s t u hcfg hday ht hu
  obtain rfl := Host.Outcome.next.inj ht
  obtain rfl := Host.Outcome.next.inj hu
  obtain ⟨-, hcells, -⟩ := persist_cells s hcfg
  have hstored : storedDays (persist s) = 0xFFFF#16 := hcells.trans hday
  have hlow := storedDays_low (persist s)
  have hhigh := storedDays_high (persist s)
  rw [hstored, (persist_onlyNv s).config] at hlow hhigh
  exact ⟨hlow.symm, hhigh.symm, (restore_daysSinceEpoch _).trans (if_pos hstored)⟩

end Sys2Proof.Machine
